-- ==== Sys2Proof/Word.lean ====
section
/-! DEFINITION. The word types of the block: bytes on the wire and the operand widths (00_scope.md R6, R9). All values are unsigned. -/

namespace Sys2Proof

/-- A byte is 8 bits (R9). -/
abbrev Byte := BitVec 8

/-- A 16-bit value: the chip identifier and the `length` operand (R6). -/
abbrev Half := BitVec 16

/-- A 32-bit value: the `address` operand and the decoded device identifier (R6). -/
abbrev Word := BitVec 32

end Sys2Proof
end

