-- ==== Sys2Proof/Config.lean ====
section
/-! DEFINITION. What is fixed for the block: the wire constants (00_scope.md R5), the defaults of the configuration registers (10_state.md R27) and the OPEN parameters (R8). -/

namespace Sys2Proof.Config

/-- The sync byte, opcode `EnterBootloader` (R5). UNVERIFIED: the literals are unaudited (93 U12), log 17. -/
def SYNC : Byte := 0x7F

/-- Positive acknowledgement (R5). -/
def ACK : Byte := 0x79

/-- Negative acknowledgement (R5). The block never tests for it (R66). -/
def NACK : Byte := 0x1F

/-- Opcode `GetVersion` (R5). -/
def OP_GET_VERSION : Byte := 0x01

/-- Opcode `GetChipId` (R5). -/
def OP_GET_CHIP_ID : Byte := 0x02

/-- Opcode `ReadMemory`, "custom" (R5). -/
def OP_READ_MEMORY : Byte := 0x11

/-- The XOR mask of the checksum (R5). -/
def CHK_MASK : Byte := 0xFF

/-- Default of the register `BAUD` in bits per second (R7, R27). -/
def BAUD_DEFAULT : Nat := 115200

/-- Default of the register `T_READ`: 1 second (R7, R27), in nanoseconds (DESIGN CHOICE, log 10). -/
def T_READ_DEFAULT : Nat := 1000000000

/-- The format of one serial character (R8, R46; 92 D13). -/
structure LineFormat where
  dataBits : Nat
  parityBits : Nat
  stopBits : Nat
  lsbFirst : Bool
  deriving DecidableEq, Repr, Inhabited

/-- The instant a read's timeout starts counting, relative to the call (R8, R146; 92 D11). -/
inductive TimeoutStart where
  | atCall
  | atLastByte
  | other (code : Nat)
  deriving DecidableEq, Repr, Inhabited

/-- `LINE_FORMAT` is OPEN (R8): nothing constrains it and no rule reads it (log 16). -/
opaque LINE_FORMAT : LineFormat

/-- `RX_DEPTH` is OPEN (R8): the capacity of the transport's receive backlog. No rule reads it; the model's backlog is
unbounded, the spec's safe choice (log 16). -/
opaque RX_DEPTH : Nat

/-- `T_WRITE` is OPEN (R8): the bound on a blocking write, in nanoseconds. Only the duration bound of R174 mentions it (log 16). -/
opaque T_WRITE : Nat

/-- `T_READ_START` is OPEN (R8): the model is untimed and reads it nowhere (log 16). -/
opaque T_READ_START : TimeoutStart

end Sys2Proof.Config
end

