-- ==== Sys2Proof/Syntax.lean ====
section
/-! DEFINITION. The five operations (00_scope.md R3, R14; 30_encoding.md R79) and the request that selects one of them at the host port (10_state.md R29). -/

namespace Sys2Proof

/-- The operations, one constructor for each row of spec/opcode_table.json. Operands have the widths of R6, so every term
is an operation the block accepts: no operand value is excluded (R47, R74, R123). -/
inductive Instr where
  /-- `enter()`, R90. -/
  | enter
  /-- `send_command(opcode: u8)`, R100. -/
  | sendCommand (opcode : Byte)
  /-- `get_version()`, R104. -/
  | getVersion
  /-- `get_chip_id()`, R107. -/
  | getChipId
  /-- `read_memory(address: u32, length: u16)`, R120. -/
  | readMemory (address : Word) (length : Half)
  deriving DecidableEq, Repr

/-- A request as it stands on the host port: the fields of R29, with `op` as the 3-bit selector of R81. A field that the
selected operation does not use is carried and ignored (log 4). -/
structure Request where
  op : BitVec 3
  opcode : Byte
  address : Word
  length : Half
  deriving DecidableEq, Repr

end Sys2Proof
end

