-- ==== Sys2Proof/Machine/State.lean ====
section
/-! DEFINITION. The state of the machine as plain data: the block's one bit and its sequencer, the configuration registers, the host port, and the transport with the environment's coming answers (10_state.md). -/

namespace Sys2Proof.Machine

/-! ### Results (00_scope.md R12; 10_state.md R29; 60_exceptions.md R130) -/

/-- The informational field that goes with `Nacked` (41_framed_commands.md R112). No rule of the block reads it (log 21). -/
inductive NackDetail where
  | timeout
  | byte (b : Byte)
  deriving DecidableEq, Repr

/-- The error kinds: the document's four and the spec's own `Refused` (R130). -/
inductive ErrKind where
  | noResponse
  | nacked (detail : NackDetail)
  | shortRead
  | transportError
  | refused
  deriving DecidableEq, Repr

/-- The value of an `Ok` result (R12): none, a `u8`, a `u16` or a byte sequence. -/
inductive Value where
  | unit
  | u8 (v : Byte)
  | u16 (v : Half)
  | bytes (d : List Byte)
  deriving DecidableEq, Repr

/-- The one result of an operation (R12). An error carries no value (R137). -/
inductive Result where
  | ok (v : Value)
  | err (k : ErrKind)
  deriving DecidableEq, Repr

/-- The `status` field of a result (R29). -/
inductive Status where
  | ok
  | noResponse
  | nacked
  | shortRead
  | transportError
  | refused
  deriving DecidableEq, Repr

/-! ### The transport and the environment behind it (R30, R34; 20_memory.md R40, R41) -/

/-- One item of the receive stream: a byte, or the environment's choice to end the read that reaches it, by the timeout
elapsing (00_scope.md R11) or by a transport failure (R134). See log 5. -/
inductive RxItem where
  | byte (b : Byte)
  | timeout
  | failure
  deriving DecidableEq, Repr

/-- How the transport answers one write: it completes, or it fails after `sent` bytes reached the wire (00_scope.md R10,
20_memory.md R49). See log 6. -/
inductive WriteAnswer where
  | completes
  | fails (sent : Nat)
  deriving DecidableEq, Repr

/-- The phases of the sequencer (10_state.md R24, R25). -/
inductive Phase where
  | idle
  | tx
  | rxAck
  | rxLen
  | rxVal
  | rxBody
  | rxTail
  | rxRaw
  deriving DecidableEq, Repr

/-- What one transport call did: a write with the bytes handed over and the prefix that reached the wire, or a read with
the size asked and the bytes it took off the receive stream; `failed` is a `TransportError` at that call. -/
inductive Io where
  | write (bytes sent : List Byte) (failed : Bool)
  | read (size : Nat) (taken : List Byte) (failed : Bool)
  deriving DecidableEq, Repr

/-- One transport call with the phase that made it (R25). -/
structure Call where
  phase : Phase
  io : Io
  deriving DecidableEq, Repr

/-- The transport and the environment behind it. -/
structure Transport where
  /-- The host has the transport open (R33, 70_reset_and_hazards.md R160, R163). -/
  isOpen : Bool
  /-- The receive stream still unread, the backlog at its front (R30, R41). -/
  incoming : List RxItem
  /-- The answers to the coming writes; none left means that writes complete (log 6). -/
  writeAnswers : List WriteAnswer
  /-- Every call made so far, oldest first (R52, R53). The block never reads it (log 20). -/
  calls : List Call
  deriving DecidableEq, Repr

/-! ### The sequencer (R24, R25) -/

/-- The reply that follows the acknowledge of a framed command (30_encoding.md R66, R68, R69). -/
inductive Follow where
  | nothing
  | version
  | chipId
  deriving DecidableEq, Repr

/-- The sequencer's position inside the operation in progress, with what the operation has latched so far (R23, R24; 20_memory.md
R57): one constructor for each transport call still to be made. -/
inductive Activity where
  /-- No operation in progress. -/
  | idle
  /-- The frame of `op` is to be written. -/
  | tx (op : Instr)
  /-- ENTER's reply byte is to be read (R90). -/
  | syncAck
  /-- The acknowledge of a framed command is to be read (R100). -/
  | cmdAck (follow : Follow)
  /-- GET_VERSION's length byte is to be read (R104). -/
  | lenV
  /-- GET_CHIP_ID's length byte is to be read (R107). -/
  | lenI
  /-- GET_VERSION's version byte is to be read. -/
  | valV (len : Byte)
  /-- GET_CHIP_ID's two identifier bytes are to be read. -/
  | valI
  /-- GET_VERSION's body is to be read and discarded. -/
  | bodyV (len ver : Byte)
  /-- The trailing byte is to be read; then `value` is returned. -/
  | tail (value : Value)
  /-- READ_MEMORY's data is to be read (R120). -/
  | raw (length : Half)
  deriving DecidableEq, Repr

/-! ### Configuration registers (R27) -/

/-- The three configuration registers (R27). `tRead` is in nanoseconds (log 10). -/
structure Settings where
  portId : String
  baud : Nat
  tRead : Nat
  deriving DecidableEq, Repr

/-- The settings of a caller that gives none of its own: the defaults of R27. `PORT_ID` has no default; the empty string is a
DESIGN CHOICE (log 9). -/
def Settings.default : Settings := ⟨"", Config.BAUD_DEFAULT, Config.T_READ_DEFAULT⟩

/-- An open transport with nothing received, nothing scripted and nothing sent. The spec leaves the backlog at construction
unspecified (R32): DESIGN CHOICE, log 9. -/
def Transport.fresh : Transport := ⟨true, [], [], []⟩

/-! ### The state -/

/-- The whole state. Of it, only `synchronized` is the block's architectural state (R20); see log 1. -/
structure State where
  /-- The block's one flag (R20, R21, R26). -/
  synchronized : Bool
  /-- The sequencer (R24). -/
  activity : Activity
  /-- The configuration registers (R27). -/
  settings : Settings
  /-- Host port: the requests the host is still to issue, first issued first (R29, R79; log 2). -/
  requests : List Request
  /-- Host port: the results handed to the host, oldest first (R29; log 20). -/
  delivered : List Result
  /-- The transport (R150). -/
  transport : Transport
  deriving DecidableEq, Repr

/-- Session construction on a transport the caller has opened with its settings (70_reset_and_hazards.md R160, R162, R163): `synchronized`
false, sequencer IDLE, nothing outstanding, no transport call made, the transport left as it is. -/
def State.construct (settings : Settings) (transport : Transport) : State :=
  { synchronized := false, activity := .idle, settings := settings, requests := [], delivered := [],
    transport := transport }

/-- The machine right after reset (R32). What the spec leaves to the caller or the environment has the values of log 9. -/
def State.reset : State := State.construct Settings.default Transport.fresh

/-! ### Why a step can stop -/

/-- Faults: the machine has no next state. -/
inductive Fault where
  /-- Raised by `step`, and by every operation issued, when the host has closed the transport: "a model has no step for
  it" (R33, 93 U5). Safe: nothing can be proved of a run after the close (log 13). -/
  | transportClosed
  deriving DecidableEq, Repr

/-- Refusals: the request has no meaning. -/
inductive Refusal where
  /-- Raised by an arm of `exec` that has no meaning yet; safe. No arm raises it. -/
  | notModelled (mnemonic : String)
  /-- Raised by `step` on a request whose selector is 5, 6 or 7 (R81, 93 U21). Safe (log 15). -/
  | reservedSelector (op : BitVec 3)
  /-- Raised by an operation issued while another is in progress (R58, R167, 93 U4). Safe (log 14). -/
  | busy
  deriving DecidableEq, Repr

end Sys2Proof.Machine
end

