-- ==== Sys2Proof/Machine/Flags.lean ====
section
/-! DEFINITION. The block's one flag `synchronized` (10_state.md R21, R26), the acknowledge test (41_framed_commands.md R102), and the fields of a result on the host port (R29, 60_exceptions.md R136). -/

namespace Sys2Proof.Machine

/-- A successful handshake sets the flag (R21). Nothing but construction clears it. -/
def setSynchronized (s : State) : State := { s with synchronized := true }

/-- The operations whose precondition is `synchronized` (R22, R26; the table's `requires_synchronized`). -/
def requiresSynchronized : Instr → Bool
  | .enter => false
  | .sendCommand _ => true
  | .getVersion => true
  | .getChipId => true
  | .readMemory _ _ => false

/-- The acknowledge test: the one byte read equals `0x79` (R66, R102). -/
def isAck (r : List Byte) : Bool := r == [Config.ACK]

/-- The informational detail of `Nacked` (R112). -/
def nackDetail : List Byte → NackDetail
  | [] => .timeout
  | b :: _ => .byte b

/-- The `status` field of a result (R29). -/
def Result.status : Result → Status
  | .ok _ => .ok
  | .err .noResponse => .noResponse
  | .err (.nacked _) => .nacked
  | .err .shortRead => .shortRead
  | .err .transportError => .transportError
  | .err .refused => .refused

/-- The status numbers, 3 bits wide (R136). -/
def Status.code : Status → BitVec 3
  | .ok => 0
  | .noResponse => 1
  | .nacked => 2
  | .shortRead => 3
  | .transportError => 4
  | .refused => 5

/-- The field `value8`, valid only with status Ok (R29). -/
def Result.value8 : Result → Option Byte
  | .ok (.u8 v) => some v
  | _ => none

/-- The field `value16`, valid only with status Ok (R29). -/
def Result.value16 : Result → Option Half
  | .ok (.u16 v) => some v
  | _ => none

/-- The field `data`, valid only with status Ok (R29, R126). -/
def Result.data : Result → Option (List Byte)
  | .ok (.bytes d) => some d
  | _ => none

/-- The field `nack_detail`, valid only with status Nacked (R29, R112). -/
def Result.nackDetail : Result → Option NackDetail
  | .err (.nacked d) => some d
  | _ => none

end Sys2Proof.Machine
end

