-- ==== Sys2Proof/Decode.lean ====
section
/-! DEFINITION. Selecting an operation at the host port (30_encoding.md R81), the frames the operations transmit (R61 to R65), and the reading of a frame of spec/opcode_table.json as an operation (R82). -/

namespace Sys2Proof

/-- Why a request or a frame stands for no operation. -/
inductive DecodeError where
  /-- Selector 5, 6 or 7: no operation (R81). -/
  | reservedSelector (op : BitVec 3)
  /-- One byte that is not the sync byte (R61). -/
  | notSyncByte (b : Byte)
  /-- Two bytes whose second is not the checksum of the first (R62). -/
  | badChecksum (o c : Byte)
  /-- Five bytes whose first is not the custom read opcode (R64). -/
  | notReadRequest (b : Byte)
  /-- No frame has this many bytes (R10: 1, 2 or 5). -/
  | noSuchFrameLength (n : Nat)
  deriving DecidableEq, Repr

/-! ### The host port -/

/-- The operation a request selects (R81). Total: a selector that is no operation is rejected by name. -/
def decode (r : Request) : Except DecodeError Instr :=
  match r.op.toNat with
  | 0 => .ok .enter
  | 1 => .ok (.sendCommand r.opcode)
  | 2 => .ok .getVersion
  | 3 => .ok .getChipId
  | 4 => .ok (.readMemory r.address r.length)
  | _ => .error (.reservedSelector r.op)

/-- The request by which the host issues an operation (R29, R81); fields the operation does not use are zero (log 4). -/
def encode : Instr → Request
  | .enter => ⟨0, 0, 0, 0⟩
  | .sendCommand o => ⟨1, o, 0, 0⟩
  | .getVersion => ⟨2, 0, 0, 0⟩
  | .getChipId => ⟨3, 0, 0, 0⟩
  | .readMemory a n => ⟨4, 0, a, n⟩

/-- The textual form of an operation, its operands in decimal (R14, R79). -/
def callText : Instr → String
  | .enter => "enter()"
  | .sendCommand o => "send_command(" ++ toString o.toNat ++ ")"
  | .getVersion => "get_version()"
  | .getChipId => "get_chip_id()"
  | .readMemory a n => "read_memory(" ++ toString a.toNat ++ ", " ++ toString n.toNat ++ ")"

/-! ### The transmitted frames -/

/-- The checksum of a command frame (R63). -/
def checksum (o : Byte) : Byte := o ^^^ Config.CHK_MASK

/-- Format C: opcode, then checksum (R62). -/
def commandFrame (o : Byte) : List Byte := [o, checksum o]

/-- The four address bytes in the order they are sent, low byte first (R65, R43). -/
def addressBytes (a : Word) : List Byte :=
  [a.extractLsb' 0 8, a.extractLsb' 8 8, a.extractLsb' 16 8, a.extractLsb' 24 8]

/-- Four bytes, the first the low-order one, as a 32-bit value: the inverse of the split of R65, the formula of R124. -/
def joinLe32 (d0 d1 d2 d3 : Byte) : Word :=
  d0.setWidth 32 ||| (d1.setWidth 32 <<< 8) ||| (d2.setWidth 32 <<< 16) ||| (d3.setWidth 32 <<< 24)

/-- The frame an operation transmits, first byte first on the wire: format S (R61), C (R62) or A (R64). `length` is not
transmitted (R64). -/
def frame : Instr → List Byte
  | .enter => [Config.SYNC]
  | .sendCommand o => commandFrame o
  | .getVersion => commandFrame Config.OP_GET_VERSION
  | .getChipId => commandFrame Config.OP_GET_CHIP_ID
  | .readMemory a _ => Config.OP_READ_MEMORY :: addressBytes a

/-- The operand that no frame carries: READ_MEMORY's `length` (R64), zero for every other operation. -/
def untransmittedLength : Instr → Half
  | .enter => 0
  | .sendCommand _ => 0
  | .getVersion => 0
  | .getChipId => 0
  | .readMemory _ n => n

/-! ### Reading a frame of the table

The block itself never decodes the wire (R82). This reading serves the opcode table only. -/

/-- The operation of the table whose frame is `bs`, given the operand that is not transmitted. Where two operations
transmit the same bytes (R82) the row with every bit fixed is taken: `01 FE` reads as GET_VERSION and `02 FD` as
GET_CHIP_ID (DESIGN CHOICE, log 3). -/
def decodeFrame (bs : List Byte) (length : Half) : Except DecodeError Instr :=
  match bs with
  | [b] => if b = Config.SYNC then .ok .enter else .error (.notSyncByte b)
  | [o, c] =>
    if c ≠ checksum o then .error (.badChecksum o c)
    else if o = Config.OP_GET_VERSION then .ok .getVersion
    else if o = Config.OP_GET_CHIP_ID then .ok .getChipId
    else .ok (.sendCommand o)
  | [b, d0, d1, d2, d3] =>
    if b = Config.OP_READ_MEMORY then .ok (.readMemory (joinLe32 d0 d1 d2 d3) length) else .error (.notReadRequest b)
  | _ => .error (.noSuchFrameLength bs.length)

/-- The operation that the table's reading gives for an operation's own frame: itself, but for the two SEND_COMMANDs whose
frame another row fixes wholly (R82, log 3). -/
def tableReading : Instr → Instr
  | .enter => .enter
  | .sendCommand o =>
    if o = Config.OP_GET_VERSION then .getVersion
    else if o = Config.OP_GET_CHIP_ID then .getChipId
    else .sendCommand o
  | .getVersion => .getVersion
  | .getChipId => .getChipId
  | .readMemory a n => .readMemory a n

/-- The bytes of a frame written as one number of `8 * n` bits, byte 0 in the most significant position (R82, 92 D26). -/
def bytesOfTableWord : Nat → Nat → List Byte
  | 0, _ => []
  | n + 1, w => BitVec.ofNat 8 (w / 256 ^ n) :: bytesOfTableWord n w

/-- A frame as one number, byte 0 in the most significant position (R82, 92 D26). -/
def tableWordOfBytes (bs : List Byte) : Nat := bs.foldl (fun acc b => acc * 256 + b.toNat) 0

/-- The operation read from a word of `nbits` bits numbered as spec/opcode_table.json numbers them: the frame as one number
(R82), the untransmitted `length` zero (log 3). -/
def decodeTableWord (nbits w : Nat) : Option Instr :=
  match decodeFrame (bytesOfTableWord (nbits / 8) w) 0 with
  | .ok i => some i
  | .error _ => none

end Sys2Proof
end

