-- ==== Sys2Proof/Machine/Operands.lean ====
section
/-! DEFINITION. Assembling values from received bytes (30_encoding.md R71; 42_custom_read.md R124) and the operand sizes of reads. -/

namespace Sys2Proof.Machine

/-- Chip identifier, big-endian: the first byte received is the high-order one (R71, R42). -/
def assembleChipId (b0 b1 : Byte) : Half := (b0.setWidth 16 <<< 8) ||| b1.setWidth 16

/-- `DECODE_LE32`, the caller's helper, on exactly four bytes (R124, 93 U22). -/
def decodeLe32 (d0 d1 d2 d3 : Byte) : Word := joinLe32 d0 d1 d2 d3

/-- The first canonical use of READ_MEMORY: a four-byte `Ok` result as a device identifier (R44, R80, R124). -/
def deviceId : Result → Option Word
  | .ok (.bytes [d0, d1, d2, d3]) => some (decodeLe32 d0 d1 d2 d3)
  | _ => none

/-- The size of the body read of GET_VERSION: the length byte as an unsigned number (R68, R104). -/
def bodySize (len : Byte) : Nat := len.toNat

/-- The size of the data read of READ_MEMORY (R120). -/
def rawSize (length : Half) : Nat := length.toNat

end Sys2Proof.Machine
end

