-- ==== Sys2Proof/Machine/Ops.lean ====
section
/-! DEFINITION. The shared operations: the transport primitives TxWrite and RxRead (00_scope.md R10, R11, R13), the sequencing of an operation's steps up to its first error (60_exceptions.md R139, R140), the delivery of its one result, and the host's own actions (10_state.md R29, R33). -/

namespace Sys2Proof.Machine

/-! ### Views -/

/-- The phase of the sequencer at each position (R25). -/
def Activity.phase : Activity → Phase
  | .idle => .idle
  | .tx _ => .tx
  | .syncAck => .rxAck
  | .cmdAck _ => .rxAck
  | .lenV => .rxLen
  | .lenI => .rxLen
  | .valV _ => .rxVal
  | .valI => .rxVal
  | .bodyV _ _ => .rxBody
  | .tail _ => .rxTail
  | .raw _ => .rxRaw

/-- The bytes a call put on the wire. -/
def Call.sent (c : Call) : List Byte :=
  match c.io with
  | .write _ sent _ => sent
  | .read _ _ _ => []

/-- The bytes a call took off the receive stream. -/
def Call.taken (c : Call) : List Byte :=
  match c.io with
  | .write _ _ _ => []
  | .read _ taken _ => taken

/-- The call ended in a `TransportError` (R134). -/
def Call.failed (c : Call) : Bool :=
  match c.io with
  | .write _ _ failed => failed
  | .read _ _ failed => failed

/-- The call is a write. -/
def Call.isWrite (c : Call) : Bool :=
  match c.io with
  | .write _ _ _ => true
  | .read _ _ _ => false

/-- The transmit stream: the in-order concatenation of what every write put on the wire (R34, R40). -/
def txStream (calls : List Call) : List Byte := calls.flatMap Call.sent

/-- The bytes taken off the receive stream, in order (R41). -/
def rxTaken (calls : List Call) : List Byte := calls.flatMap Call.taken

/-- The bytes of a receive stream, its timeouts and failures left out. -/
def streamBytes (items : List RxItem) : List Byte :=
  items.filterMap fun
    | .byte b => some b
    | .timeout => none
    | .failure => none

/-! ### The transport primitives -/

/-- What one read of the receive stream gives: the bytes taken, whether the transport failed, and what is left. -/
structure Taken where
  bytes : List Byte
  failed : Bool
  rest : List RxItem
  deriving DecidableEq, Repr

/-- Read up to `n` bytes off the front of the receive stream (R11, R41; 92 D23). The read ends when it has `n` bytes, or at a
timeout (which it consumes), or at a failure (which it consumes), or when nothing more arrives (log 5). Bytes taken before a
failure are gone (DESIGN CHOICE, log 7). -/
def takeRx : Nat → List RxItem → Taken
  | 0, items => ⟨[], false, items⟩
  | _ + 1, [] => ⟨[], false, []⟩
  | _ + 1, .timeout :: rest => ⟨[], false, rest⟩
  | _ + 1, .failure :: rest => ⟨[], true, rest⟩
  | n + 1, .byte b :: rest =>
    let t := takeRx n rest
    ⟨b :: t.bytes, t.failed, t.rest⟩

/-- How the transport answers the next write; with nothing scripted it completes (log 6). -/
def nextWriteAnswer (s : State) : WriteAnswer := s.transport.writeAnswers.headD .completes

/-- What a step of an operation gives: a value or the error that ends the operation, and the state it leaves. -/
abbrev Reply (α : Type) := Except ErrKind α × State

/-- The state after a write that put `sent` on the wire. -/
def afterWrite (ph : Phase) (bs sent : List Byte) (failed : Bool) (s : State) : State :=
  { s with transport := { s.transport with
      writeAnswers := s.transport.writeAnswers.tail
      calls := s.transport.calls ++ [⟨ph, .write bs sent failed⟩] } }

/-- `TxWrite(bs)` (R10): it completes, or it fails with `TransportError`, having put some prefix of `bs` on the wire (R49). -/
def txWrite (ph : Phase) (bs : List Byte) (s : State) : Reply Unit :=
  match nextWriteAnswer s with
  | .completes => (.ok (), afterWrite ph bs bs false s)
  | .fails k => (.error .transportError, afterWrite ph bs (bs.take k) true s)

/-- The state after a read of size `n` that gave `t`. -/
def afterRead (ph : Phase) (n : Nat) (t : Taken) (s : State) : State :=
  { s with transport := { s.transport with
      incoming := t.rest
      calls := s.transport.calls ++ [⟨ph, .read n t.bytes t.failed⟩] } }

/-- `RxRead(n)` (R11): the bytes read, fewer than `n` when the timeout elapsed first, or `TransportError`. A read of size 0
makes no transport call (R59, log 12). A timeout is only a short read: the model has no time (log 23). -/
def rxRead (ph : Phase) (n : Nat) (s : State) : Reply (List Byte) :=
  if n = 0 then (.ok [], s)
  else
    let t := takeRx n s.transport.incoming
    (if t.failed then .error .transportError else .ok t.bytes, afterRead ph n t s)

/-! ### Sequencing -/

/-- Go on with the next step of an operation; an error ends the operation there (R12, R13, R140). -/
def andThen {α β : Type} (p : Reply α) (f : α → State → Reply β) : Reply β :=
  match p with
  | (.ok a, s) => f a s
  | (.error k, s) => (.error k, s)

/-- A read that must give all of its `n` bytes: fewer is `ShortRead` (R133). -/
def rxReadAll (ph : Phase) (n : Nat) (s : State) : Reply (List Byte) :=
  andThen (rxRead ph n s) fun r s =>
    if r.length < n then (.error .shortRead, s) else (.ok r, s)

/-- A read of one byte that must arrive. -/
def rxByte (ph : Phase) (s : State) : Reply Byte :=
  andThen (rxRead ph 1 s) fun r s =>
    match r with
    | b :: _ => (.ok b, s)
    | [] => (.error .shortRead, s)

/-- A read of two bytes that must both arrive. -/
def rxPair (ph : Phase) (s : State) : Reply (Byte × Byte) :=
  andThen (rxRead ph 2 s) fun r s =>
    match r with
    | b0 :: b1 :: _ => (.ok (b0, b1), s)
    | _ => (.error .shortRead, s)

/-- The result an operation ends with. -/
def resultOf : Except ErrKind Value → Result
  | .ok v => .ok v
  | .error k => .err k

/-- The end of an operation, by success or by error: its one result goes to the host and the sequencer is IDLE (R12, R29, R140).
This is also the whole of error entry: nothing is saved, no mode changes, and there is nothing to return from (R142). -/
def deliver (p : Reply Value) : State :=
  { p.2 with activity := .idle, delivered := p.2.delivered ++ [resultOf p.1] }

/-- Issue an operation as one atomic step (R24). With the transport closed there is no step (R33); while another operation
is in progress the request is outside the contract (R58, R167). -/
def issue (op : State → Reply Value) (s : State) : Host.Outcome State Fault Refusal :=
  if s.transport.isOpen = false then .fault .transportClosed
  else if s.activity ≠ .idle then .refused .busy
  else .next (deliver (op s))

/-! ### What the outside does -/

/-- The host adds a request to those it will issue (R29, R53). The list is the model's own, no queue of the hardware (log 2). -/
def present (r : Request) (s : State) : State := { s with requests := s.requests ++ [r] }

/-- The device sends, or the environment goes on: items join the end of the receive stream (R30, R56; 92 D8),
whose backlog is unbounded (log 16). -/
def arrive (items : List RxItem) (s : State) : State :=
  { s with transport := { s.transport with incoming := s.transport.incoming ++ items } }

/-- The host closes the transport (R33, R163, R165). -/
def close (s : State) : State := { s with transport := { s.transport with isOpen := false } }

end Sys2Proof.Machine
end

