-- ==== Sys2Proof/Machine/CustomRead.lean ====
section
/-! DEFINITION. READ_MEMORY (42_custom_read.md). -/

namespace Sys2Proof.Machine

/-- The pseudocode of R120: `synchronized` is neither read nor written (R121), no acknowledge (R122), `length` zero reads
nothing (R123). -/
def readMemoryOp (address : Word) (length : Half) (s : State) : Reply Value :=
  andThen (txWrite .tx (frame (.readMemory address length)) s) fun _ s =>
  andThen (rxReadAll .rxRaw (rawSize length) s) fun d s =>
    (.ok (.bytes d), s)

/-- READ_MEMORY (R120 to R127). -/
def execReadMemory (address : Word) (length : Half) (s : State) : Host.Outcome State Fault Refusal :=
  issue (readMemoryOp address length) s

end Sys2Proof.Machine
end

