-- ==== Sys2Proof/Machine/Framed.lean ====
section
/-! DEFINITION. The standard framed commands SEND_COMMAND, GET_VERSION and GET_CHIP_ID (41_framed_commands.md). -/

namespace Sys2Proof.Machine

/-- The pseudocode of R100 with the precondition of R101: any opcode (R74), one acknowledge byte (R102). -/
def sendCommandOp (opcode : Byte) (s : State) : Reply Value :=
  if s.synchronized = false then (.error .refused, s)
  else
    andThen (txWrite .tx (commandFrame opcode) s) fun _ s =>
    andThen (rxRead .rxAck 1 s) fun r s =>
      if isAck r then (.ok .unit, s) else (.error (.nacked (nackDetail r)), s)

/-- The pseudocode of R104: length, version, body, trailing byte, in that order (R105); the trailing byte is not compared (R109). -/
def getVersionOp (s : State) : Reply Value :=
  andThen (sendCommandOp Config.OP_GET_VERSION s) fun _ s =>
  andThen (rxByte .rxLen s) fun len s =>
  andThen (rxByte .rxVal s) fun ver s =>
  andThen (rxReadAll .rxBody (bodySize len) s) fun _ s =>
  andThen (rxByte .rxTail s) fun _ s =>
    (.ok (.u8 ver), s)

/-- The pseudocode of R107: the length byte is read and ignored (R108), two identifier bytes, the trailing byte is not
compared (R109). -/
def getChipIdOp (s : State) : Reply Value :=
  andThen (sendCommandOp Config.OP_GET_CHIP_ID s) fun _ s =>
  andThen (rxByte .rxLen s) fun _ s =>
  andThen (rxPair .rxVal s) fun b s =>
  andThen (rxByte .rxTail s) fun _ s =>
    (.ok (.u16 (assembleChipId b.1 b.2)), s)

/-- SEND_COMMAND (R100 to R103, R112). -/
def execSendCommand (opcode : Byte) (s : State) : Host.Outcome State Fault Refusal := issue (sendCommandOp opcode) s

/-- GET_VERSION (R104 to R106). -/
def execGetVersion (s : State) : Host.Outcome State Fault Refusal := issue getVersionOp s

/-- GET_CHIP_ID (R107 to R109). -/
def execGetChipId (s : State) : Host.Outcome State Fault Refusal := issue getChipIdOp s

end Sys2Proof.Machine
end

