-- ==== Sys2Proof/Machine/Handshake.lean ====
section
/-! DEFINITION. ENTER (40_handshake.md). -/

namespace Sys2Proof.Machine

/-- The pseudocode of R90: one write of the sync byte, one bounded read, no retry (R93). It has no precondition (R91). -/
def enterOp (s : State) : Reply Value :=
  andThen (txWrite .tx (frame .enter) s) fun _ s =>
  andThen (rxRead .rxAck 1 s) fun r s =>
    if isAck r then (.ok .unit, setSynchronized s) else (.error .noResponse, s)

/-- ENTER (R90 to R93). -/
def execEnter (s : State) : Host.Outcome State Fault Refusal := issue enterOp s

end Sys2Proof.Machine
end

