-- ==== Sys2Proof/Machine/Dispatch.lean ====
section
/-! DEFINITION. Which meaning each operation has, one arm for each constructor of Instr. -/

namespace Sys2Proof.Machine

def exec (i : Instr) (s : State) : Host.Outcome State Fault Refusal :=
  match i with
  -- 40_handshake.md
  | .enter => Sys2Proof.Machine.execEnter s
  -- 41_framed_commands.md
  | .sendCommand opcode => Sys2Proof.Machine.execSendCommand opcode s
  | .getVersion => Sys2Proof.Machine.execGetVersion s
  | .getChipId => Sys2Proof.Machine.execGetChipId s
  -- 42_custom_read.md
  | .readMemory address length => Sys2Proof.Machine.execReadMemory address length s

end Sys2Proof.Machine
end

