-- ==== Sys2Proof/Machine/HostPort.lean ====
section
/-! DEFINITION. What the machine finds when it looks at the host port for its next operation (10_state.md R29, R35; 30_encoding.md R81). -/

namespace Sys2Proof.Machine

/-- What there is to do next. -/
inductive Fetched where
  /-- The transport is closed: the session is destroyed (R33). -/
  | closed
  /-- An operation is in progress. -/
  | running
  /-- IDLE and nothing issued (R35). -/
  | waiting
  /-- The next request selects no operation (R81). -/
  | reserved (op : BitVec 3)
  /-- The next request selects `i`; `s` is the state with that request taken off the port. -/
  | issued (i : Instr) (s : State)
  deriving DecidableEq, Repr

/-- Look at the host port. -/
def fetch (s : State) : Fetched :=
  if s.transport.isOpen = false then .closed
  else if s.activity ≠ .idle then .running
  else
    match s.requests with
    | [] => .waiting
    | r :: rest =>
      match decode r with
      | .ok i => .issued i { s with requests := rest }
      | .error _ => .reserved r.op

/-- The status output: `synchronized`, which the host may read whenever the block is IDLE (R26, R29). After the
transport closes, where the block has no defined behaviour (R33), it goes on showing the bit: DESIGN CHOICE, log 24. -/
def statusOutput (s : State) : Option Bool := if s.activity = .idle then some s.synchronized else none

/-- The request that stands for a table word: the operation it reads as, or, where it reads as none, a selector that is no
operation (log 22). -/
def requestOfTableWord (nbits w : Nat) : Request :=
  match decodeTableWord nbits w with
  | some i => encode i
  | none => ⟨7, 0, 0, 0⟩

/-- Put the request of a table word at the front of those the host will issue, with the transport open and the sequencer IDLE,
so that the next step issues it (log 2). -/
def placeTableWord (s : State) (nbits w : Nat) : State :=
  { s with
    activity := .idle
    requests := requestOfTableWord nbits w :: s.requests
    transport := { s.transport with isOpen := true } }

end Sys2Proof.Machine
end

