-- ==== Sys2Proof/Machine/Sequencer.lean ====
section
/-! DEFINITION. The operations as a sequencer runs them: one micro-step for each transport call (10_state.md R24, R25). Written from the table of R25, apart from the atomic meanings; both renderings must agree from a Ready state on. Nothing here looks at the transport being open, and begin does not look for an operation in progress: DESIGN CHOICE, log 24. -/

namespace Sys2Proof.Machine

/-- Move to a position of the sequencer. -/
def goto (a : Activity) (s : State) : State := { s with activity := a }

/-- After a transport call: go on, or end the operation with its error (R25, R140). -/
def proceed {α : Type} (p : Reply α) (f : α → State → State) : State :=
  match p with
  | (.ok a, s) => f a s
  | (.error k, s) => deliver (.error k, s)

/-- Accept an operation: the precondition is checked before any transport call (R139); then the frame is to be written.
Meant for a Ready state only: transport open, sequencer IDLE (R29). Elsewhere the spec gives no step (R33, 20_memory.md R58; 91 N26):
DESIGN CHOICE, log 24: with the transport closed it goes on as with an open one, and an operation already in progress is replaced
without a result. `exec` and `step` do not call it. -/
def begin (op : Instr) (s : State) : State :=
  if requiresSynchronized op && !s.synchronized then deliver (.error .refused, s) else goto (.tx op) s

/-- Where the sequencer goes once the frame of `op` is written (R25). A phase whose read size is 0 is skipped. -/
def afterFrame (op : Instr) (s : State) : State :=
  match op with
  | .enter => goto .syncAck s
  | .sendCommand _ => goto (.cmdAck .nothing) s
  | .getVersion => goto (.cmdAck .version) s
  | .getChipId => goto (.cmdAck .chipId) s
  | .readMemory _ length => if length = 0 then deliver (.ok (.bytes []), s) else goto (.raw length) s

/-- Where the sequencer goes once a framed command is acknowledged (R25). -/
def afterAck (f : Follow) (s : State) : State :=
  match f with
  | .nothing => deliver (.ok .unit, s)
  | .version => goto .lenV s
  | .chipId => goto .lenI s

/-- One micro-step: the transport call of the present position, and the move it leads to. IDLE has none.
With the transport closed, where the spec gives no step (R33), it goes on as with an open one: DESIGN CHOICE, log 24. -/
def microStep (s : State) : State :=
  match s.activity with
  | .idle => s
  | .tx op => proceed (txWrite .tx (frame op) s) fun _ s => afterFrame op s
  | .syncAck => proceed (rxRead .rxAck 1 s) fun r s =>
      if isAck r then deliver (.ok .unit, setSynchronized s) else deliver (.error .noResponse, s)
  | .cmdAck f => proceed (rxRead .rxAck 1 s) fun r s =>
      if isAck r then afterAck f s else deliver (.error (.nacked (nackDetail r)), s)
  | .lenV => proceed (rxByte .rxLen s) fun len s => goto (.valV len) s
  | .lenI => proceed (rxByte .rxLen s) fun _ s => goto .valI s
  | .valV len => proceed (rxByte .rxVal s) fun ver s =>
      if len = 0 then goto (.tail (.u8 ver)) s else goto (.bodyV len ver) s
  | .valI => proceed (rxPair .rxVal s) fun b s => goto (.tail (.u16 (assembleChipId b.1 b.2))) s
  | .bodyV len ver => proceed (rxReadAll .rxBody (bodySize len) s) fun _ s => goto (.tail (.u8 ver)) s
  | .tail value => proceed (rxByte .rxTail s) fun _ s => deliver (.ok value, s)
  | .raw length => proceed (rxReadAll .rxRaw (rawSize length) s) fun d s => deliver (.ok (.bytes d), s)

/-- `n` micro-steps. -/
def microSteps : Nat → State → State
  | 0, s => s
  | n + 1, s => microSteps n (microStep s)

/-- Run the operation in progress to its end: no operation has more than six transport calls (70_reset_and_hazards.md R174).
Like `microStep` it does not look at the transport being open (DESIGN CHOICE, log 24); `step` calls it with an open one only. -/
def finish (s : State) : State := microSteps 6 s

end Sys2Proof.Machine
end

