-- ==== Sys2Proof/Machine/Step.lean ====
section
/-! DEFINITION. One step of the machine: the next operation the host issues, whole (10_state.md R24). -/

namespace Sys2Proof.Machine

/-- One step. IDLE with a request: the operation it selects, as one atomic step (R24, log 19). IDLE with none: nothing happens (R35).
With an operation in progress (a state only the micro-steps reach): it runs to its end, and no request is looked at before (R53). -/
def step (s : State) : Host.Outcome State Fault Refusal :=
  match fetch s with
  | .closed => .fault .transportClosed
  | .running => .next (finish s)
  | .waiting => .next s
  | .reserved op => .refused (.reservedSelector op)
  | .issued i s' => exec i s'

/-- `s` with the instruction of a table word as the next request the host issues (log 2, log 3). -/
def State.withFetchWord (s : State) (nbits w : Nat) : State := placeTableWord s nbits w

end Sys2Proof.Machine
end

