-- ==== Sys2Proof/WellFormed.lean ====
section
/-! DEFINITION. The well-formedness checks: a request carries one of the five selectors (30_encoding.md R81), a configuration register holds a legal value (10_state.md R27). An operation needs no check: every operand of its width is legal (R47, R74, R123), so every term of Instr is well-formed. -/

namespace Sys2Proof

/-- The request's selector is one of 0 to 4 (R81). -/
def Request.wellFormed (r : Request) : Bool := r.op.toNat < 5

/-- `BAUD` is a positive integer and `T_READ` a positive duration; the legal values of `PORT_ID` are platform-defined (R27). -/
def Machine.Settings.wellFormed (c : Machine.Settings) : Bool := 0 < c.baud && 0 < c.tRead

end Sys2Proof
end

