-- ==== Sys2Proof/Safety.lean ====
section
/-! DEFINITION. What claims are stated in: when an operation may be issued, the state an operation leaves, what a safe run is (41_framed_commands.md R101), the invariant of the machine, and the tables of R25 and R152. -/

namespace Sys2Proof.Machine

/-! ### When an operation may be issued -/

/-- The transport is open and no operation is in progress (10_state.md R29, R33). -/
abbrev Ready (s : State) : Prop := s.transport.isOpen = true ∧ s.activity = .idle

/-- The next write completes (00_scope.md R10). -/
abbrev WriteCompletes (s : State) : Prop := nextWriteAnswer s = .completes

/-- The state an operation leaves: one more result delivered, the calls `cs` made, `incoming` still unread, and the answer to
the write used up. Nothing else differs from `s`. -/
def State.after (s : State) (cs : List Call) (incoming : List RxItem) (r : Result) : State :=
  { s with
    delivered := s.delivered ++ [r]
    transport := { s.transport with
      incoming := incoming
      writeAnswers := s.transport.writeAnswers.tail
      calls := s.transport.calls ++ cs } }

/-- The items of a receive stream that is nothing but the bytes `bs`. -/
def bytesIn (bs : List Byte) : List RxItem := bs.map .byte

/-- A completed write of a whole frame. -/
def wrote (bs : List Byte) : Call := ⟨.tx, .write bs bs false⟩

/-- A read that got all it asked for. -/
def readAll (ph : Phase) (bs : List Byte) : Call := ⟨ph, .read bs.length bs false⟩

/-- Where the bytes of a receive stream stop for a read that wants more: at the timeout, or because nothing more arrives;
`rest` is what later reads see. -/
inductive Stops : List RxItem → List RxItem → Prop where
  | timeout (rest : List RxItem) : Stops (.timeout :: rest) rest
  | silence : Stops [] []

/-! ### Safe runs -/

/-- No operation of the run was refused: the premise R101 asks of a claim about a program (log 8). -/
def noneRefused (s : State) : Bool := s.delivered.all fun r => r.status != .refused

/-- The host keeps the start-up order (70_reset_and_hazards.md R163): a standard command is issued only while synchronized. -/
def mayIssue (i : Instr) (s : State) : Bool := !requiresSynchronized i || s.synchronized

/-! ### Tables of the spec -/

/-- Which outcomes an operation can have (60_exceptions.md R152). -/
def allowedStatus : Instr → List Status
  | .enter => [.ok, .noResponse, .transportError]
  | .sendCommand _ => [.ok, .nacked, .transportError, .refused]
  | .getVersion => [.ok, .nacked, .shortRead, .transportError, .refused]
  | .getChipId => [.ok, .nacked, .shortRead, .transportError, .refused]
  | .readMemory _ _ => [.ok, .shortRead, .transportError]

/-- The size of a call: the bytes handed over, or the bytes asked for (20_memory.md R48). -/
def Call.size (c : Call) : Nat :=
  match c.io with
  | .write bs _ _ => bs.length
  | .read n _ _ => n

/-- A call that did all it was asked: it did not fail, and every byte was moved. -/
def Call.Whole (c : Call) : Prop :=
  match c.io with
  | .write bs sent failed => failed = false ∧ sent = bs
  | .read n taken failed => failed = false ∧ taken.length = n

/-- The transport calls of an operation in order, each with its phase and its size (10_state.md R25). A phase whose read size is 0 is
skipped: GET_VERSION's body when the length byte `len` is 0, READ_MEMORY's data when `length` is 0. -/
def callSequence (len : Byte) : Instr → List (Phase × Nat)
  | .enter => [(.tx, 1), (.rxAck, 1)]
  | .sendCommand _ => [(.tx, 2), (.rxAck, 1)]
  | .getVersion => [(.tx, 2), (.rxAck, 1), (.rxLen, 1), (.rxVal, 1)] ++ (if len = 0 then [] else [(.rxBody, len.toNat)]) ++
      [(.rxTail, 1)]
  | .getChipId => [(.tx, 2), (.rxAck, 1), (.rxLen, 1), (.rxVal, 2), (.rxTail, 1)]
  | .readMemory _ length => [(.tx, 5)] ++ (if length = 0 then [] else [(.rxRaw, length.toNat)])

/-- The kind of value an operation's `Ok` result has (00_scope.md R12): none, a `u8`, a `u16`, or as many bytes as were asked for. -/
def ValueFits : Instr → Value → Prop
  | .enter, v => v = .unit
  | .sendCommand _, v => v = .unit
  | .getVersion, v => ∃ b, v = .u8 b
  | .getChipId, v => ∃ h, v = .u16 h
  | .readMemory _ length, v => ∃ d, v = .bytes d ∧ d.length = length.toNat

/-- At most how many transport calls an operation makes (70_reset_and_hazards.md R174). -/
def maxCalls : Instr → Nat
  | .enter => 2
  | .sendCommand _ => 2
  | .getVersion => 6
  | .getChipId => 5
  | .readMemory _ _ => 2

/-- The bound on one call's duration: `T_WRITE` for a write, `T_READ` for a read (70_reset_and_hazards.md R174). -/
def callBound (settings : Settings) (c : Call) : Nat := if c.isWrite then Config.T_WRITE else settings.tRead

/-- The bound on the duration of a sequence of calls: the sum of the bounds of its calls (R174). -/
def durationBound (settings : Settings) (cs : List Call) : Nat := (cs.map (callBound settings)).sum

/-! ### The invariant -/

/-- The two calls of a successful handshake (40_handshake.md R90). -/
def handshakeCalls : List Call := [wrote [Config.SYNC], readAll .rxAck [Config.ACK]]

/-- A successful handshake stands among the calls. -/
def Handshaken (calls : List Call) : Prop := handshakeCalls <:+: calls

/-- A call of a shape the block makes (20_memory.md R40, R48, R59): a write of some operation's frame, in phase TX, of which a
prefix reached the wire, the whole of it unless the write failed; or a read of the size its phase asks for, never 0, that took
no more than it asked. -/
def Call.Legal (c : Call) : Prop :=
  match c.io with
  | .write bs sent failed => c.phase = .tx ∧ (∃ i, bs = frame i) ∧ sent <+: bs ∧ (failed = false → sent = bs)
  | .read n taken _ => taken.length ≤ n ∧ 0 < n ∧
      match c.phase with
      | .rxAck => n = 1
      | .rxLen => n = 1
      | .rxVal => n ≤ 2
      | .rxBody => n ≤ 255
      | .rxTail => n = 1
      | .rxRaw => n ≤ 65535
      | .idle => False
      | .tx => False

/-- A call that writes a standard command frame (30_encoding.md R62). -/
def Call.WritesCommand (c : Call) : Prop := ∃ o sent failed, c.io = .write (commandFrame o) sent failed

/-- Every standard command frame was written after a successful handshake (10_state.md R22). -/
def CommandsAfterHandshake (calls : List Call) : Prop :=
  ∀ before c later, calls = before ++ c :: later → c.WritesCommand → Handshaken before

/-- The invariant of the machine: the settings are legal, `synchronized` is true only after a successful handshake (R21), every
transport call is of a legal shape, every command frame came after a handshake (R22), and the sequencer's position agrees with
what it has already sent. -/
structure Invariant (s : State) : Prop where
  settingsLegal : s.settings.wellFormed = true
  synchronizedOnlyAfterHandshake : s.synchronized = true → Handshaken s.transport.calls
  callsLegal : ∀ c ∈ s.transport.calls, c.Legal
  commandsAfterHandshake : CommandsAfterHandshake s.transport.calls
  syncSent : s.activity = .syncAck → [wrote [Config.SYNC]] <:+ s.transport.calls
  acceptedInMode : ∀ op, s.activity = .tx op → requiresSynchronized op = true → s.synchronized = true

end Sys2Proof.Machine
end

