-- ==== Sys2Proof/Certificates/Slice0/Obligations.lean ====
section
/-! DEFINITION. The statements about the machine, from the numbered rules of the spec. Each docstring names the rules it formalises; where a clause is the model's own choice it names the log entry. -/

open Sys2Proof Sys2Proof.Machine

/-! ### Encoding -/

/-- R61, R62, R64, R82 and the rows of spec/opcode_table.json: a word written out for each row reads as that row's operation. The
choice of row where two share a frame, and the zero `length`, are log 3. -/
def Obligations.TableWordsReadAsTheirRows : Prop :=
  decodeTableWord 8 0b01111111 = some .enter ∧
  decodeTableWord 16 0b0000000111111110 = some .getVersion ∧
  decodeTableWord 16 0b0000001011111101 = some .getChipId ∧
  decodeTableWord 16 0b1010010101011010 = some (.sendCommand 0xA5) ∧
  decodeTableWord 40 0x1100580140 = some (.readMemory 0x40015800 0) ∧
  decodeTableWord 8 0x79 = none ∧
  decodeTableWord 16 0x0000 = none ∧
  decodeTableWord 40 0x1200580140 = none

/-- The selector codes of the host port, the spec's own numbering (R81, its decision D2). Codes 0 to 4 select the five operations, codes 5 to 7 select none, and a step on a
request that carries one of those is refused. -/
def Obligations.SelectorCodesSelectTheOperations : Prop :=
  ∀ (r : Request),
    (r.op = 0 → decode r = .ok .enter) ∧
    (r.op = 1 → decode r = .ok (.sendCommand r.opcode)) ∧
    (r.op = 2 → decode r = .ok .getVersion) ∧
    (r.op = 3 → decode r = .ok .getChipId) ∧
    (r.op = 4 → decode r = .ok (.readMemory r.address r.length)) ∧
    (5 ≤ r.op.toNat → decode r = .error (.reservedSelector r.op) ∧
      ∀ (s : State) (rest : List Request), Ready s → s.requests = r :: rest →
        step s = .refused (.reservedSelector r.op))

/-- R29, R81: the request that issues an operation selects that operation, whatever its operands. -/
def Obligations.PortEncodeThenDecode : Prop :=
  ∀ (i : Instr), (encode i).wellFormed = true ∧ decode (encode i) = .ok i

/-- R61 to R65, R82: the frame of every operation reads back as that operation, with every operand at every value, but for
SEND_COMMAND(0x01) and SEND_COMMAND(0x02), whose frames are those of GET_VERSION and GET_CHIP_ID (log 3); the frame's number
loses none of its bytes; and a frame that reads as an operation is that operation's frame. -/
def Obligations.FramesAndOperationsAgree : Prop :=
  (∀ (i : Instr),
    decodeFrame (frame i) (untransmittedLength i) = .ok (tableReading i) ∧
    (i ≠ .sendCommand 0x01 → i ≠ .sendCommand 0x02 → tableReading i = i) ∧
    bytesOfTableWord (frame i).length (tableWordOfBytes (frame i)) = frame i) ∧
  (∀ (bs : List Byte) (length : Half) (i : Instr), decodeFrame bs length = .ok i → frame i = bs)

/-- R82, R64: which operations transmit the same bytes: those the table's reading does not tell apart, and two READ_MEMORYs of
one address, since `length` is not transmitted. -/
def Obligations.SameFrameExactlyWhenIndistinguishable : Prop :=
  ∀ (i j : Instr), frame i = frame j ↔
    (tableReading i = tableReading j ∨ ∃ a n m, i = .readMemory a n ∧ j = .readMemory a m)

/-- R63: the checksum is the bitwise complement of the opcode, with the consequences and the values the rule lists; it covers the
opcode byte of a command frame, and no byte of the other two frames depends on a checksum. -/
def Obligations.ChecksumIsTheComplement : Prop :=
  (∀ (o : Byte),
    checksum o = o ^^^ 0xFF ∧
    (∀ k : Nat, k < 8 → (checksum o).getLsbD k = !o.getLsbD k) ∧
    o ^^^ checksum o = 0xFF ∧
    (checksum o).toNat = 255 - o.toNat ∧
    checksum o ≠ o ∧
    checksum (checksum o) = o ∧
    frame (.sendCommand o) = [o, checksum o]) ∧
  frame .getVersion = [0x01, checksum 0x01] ∧ frame .getChipId = [0x02, checksum 0x02] ∧
  frame .enter = [0x7F] ∧
  (∀ (a : Word) (n : Half), frame (.readMemory a n) =
    [0x11, a.extractLsb' 0 8, a.extractLsb' 8 8, a.extractLsb' 16 8, a.extractLsb' 24 8]) ∧
  checksum 0x00 = 0xFF ∧ checksum 0x01 = 0xFE ∧ checksum 0x02 = 0xFD ∧ checksum 0x11 = 0xEE ∧
  checksum 0x7F = 0x80 ∧ checksum 0x80 = 0x7F ∧ checksum 0xFF = 0x00

/-- R65: the four address bytes, low byte first, and the rule's example. -/
def Obligations.AddressSplitLowByteFirst : Prop :=
  (∀ (a : Word) (n : Half), frame (.readMemory a n) =
    [0x11, BitVec.ofNat 8 a.toNat, BitVec.ofNat 8 (a.toNat / 256), BitVec.ofNat 8 (a.toNat / 65536),
      BitVec.ofNat 8 (a.toNat / 16777216)]) ∧
  addressBytes 0x40015800 = [0x00, 0x58, 0x01, 0x40] ∧
  ∀ (n : Half), frame (.readMemory 0x40015800 n) = [0x11, 0x00, 0x58, 0x01, 0x40]

/-- R71: the chip identifier is assembled big-endian, without overflow, and the rule's examples. -/
def Obligations.ChipIdFirstByteHigh : Prop :=
  (∀ (b0 b1 : Byte),
    assembleChipId b0 b1 = (b0.setWidth 16 <<< 8) ||| b1.setWidth 16 ∧
    (assembleChipId b0 b1).toNat = b0.toNat * 256 + b1.toNat ∧
    (assembleChipId b0 b1).extractLsb' 8 8 = b0 ∧
    (assembleChipId b0 b1).extractLsb' 0 8 = b1) ∧
  assembleChipId 0x04 0x30 = 0x0430 ∧ assembleChipId 0x30 0x04 = 0x3004 ∧
  assembleChipId 0xFF 0xFF = 0xFFFF ∧ assembleChipId 0x00 0x00 = 0x0000

/-- R124 and the vectors of 95 section 3.5: DECODE_LE32 weighs its bytes little-endian, undoes the address split, and gives the
document's device identifier on the document's scripted READ_MEMORY. -/
def Obligations.DecodeLe32UndoesTheSplit : Prop :=
  (∀ (d0 d1 d2 d3 : Byte),
    decodeLe32 d0 d1 d2 d3 =
      d0.setWidth 32 ||| (d1.setWidth 32 <<< 8) ||| (d2.setWidth 32 <<< 16) ||| (d3.setWidth 32 <<< 24) ∧
    (decodeLe32 d0 d1 d2 d3).toNat = d0.toNat + 256 * d1.toNat + 65536 * d2.toNat + 16777216 * d3.toNat) ∧
  (∀ (a : Word), ∃ d0 d1 d2 d3, addressBytes a = [d0, d1, d2, d3] ∧ decodeLe32 d0 d1 d2 d3 = a) ∧
  (∀ (s : State) (rest : List RxItem), Ready s → WriteCompletes s →
    s.transport.incoming = bytesIn [0x04, 0x15, 0x01, 0x40] ++ rest →
    ∃ t r, exec (.readMemory 0x40015800 4) s = .next t ∧ t.delivered = s.delivered ++ [r] ∧
      deviceId r = some 0x40011504)

/-! ### The transport primitives -/

/-- R11, R41: a read of `n > 0` bytes takes the bytes at the front of the receive stream, in order and never more than `n`; it ends
with `n` of them, or at a timeout, or when nothing more arrives (log 5), or at a failure, which yields no bytes at all (R139; the
bytes before it are lost, log 7). It changes nothing else. -/
def Obligations.RxReadTakesTheFrontOfTheStream : Prop :=
  ∀ (ph : Phase) (n : Nat) (s : State), 0 < n →
    ∃ taken failed rest,
      rxRead ph n s = (if failed then .error .transportError else .ok taken,
        { s with transport := { s.transport with
            incoming := rest, calls := s.transport.calls ++ [⟨ph, .read n taken failed⟩] } }) ∧
      ((taken.length = n ∧ failed = false ∧ s.transport.incoming = bytesIn taken ++ rest) ∨
       (taken.length < n ∧ failed = false ∧
          ∃ stop, Stops stop rest ∧ s.transport.incoming = bytesIn taken ++ stop) ∨
       (taken.length < n ∧ failed = true ∧ s.transport.incoming = bytesIn taken ++ .failure :: rest))

/-- R11, R134, 93 U1: the environment may answer a read of `n > 0` bytes with any bytes up to `n`, leaving any stream behind, or
with a failure: the model shuts out no behaviour of the device. -/
def Obligations.EnvironmentMayAnswerAnyRead : Prop :=
  ∀ (ph : Phase) (n : Nat) (s : State) (rest : List RxItem), 0 < n →
    (∀ bs : List Byte, bs.length ≤ n → ∃ incoming t,
      rxRead ph n { s with transport := { s.transport with incoming := incoming } } = (.ok bs, t) ∧
      t.transport.incoming = rest) ∧
    (∃ incoming t,
      rxRead ph n { s with transport := { s.transport with incoming := incoming } } = (.error .transportError, t) ∧
      t.transport.incoming = rest)

/-- The spec's decision D7 (R59): a read of size 0 makes no transport call, consumes nothing and is not short; so GET_VERSION with `L = 0` reads no body and
READ_MEMORY with `length = 0` reads nothing, and both succeed. -/
def Obligations.ZeroSizeReadMakesNoCall : Prop :=
  (∀ (ph : Phase) (s : State), rxRead ph 0 s = (.ok [], s)) ∧
  (∀ (s : State) (v t : Byte) (rest : List RxItem), Ready s → s.synchronized = true → WriteCompletes s →
    s.transport.incoming = bytesIn [0x79, 0x00, v, t] ++ rest →
    exec .getVersion s = .next (s.after
      [wrote [0x01, 0xFE], readAll .rxAck [0x79], readAll .rxLen [0x00], readAll .rxVal [v], readAll .rxTail [t]]
      rest (.ok (.u8 v)))) ∧
  (∀ (s : State) (a : Word), Ready s → WriteCompletes s →
    exec (.readMemory a 0) s = .next (s.after [wrote (0x11 :: addressBytes a)] s.transport.incoming (.ok (.bytes []))))

/-- R10, R49: a write completes with all its bytes on the wire in order, or fails with TransportError with some prefix of them
there, any prefix being possible; it changes nothing else. -/
def Obligations.TxWriteSendsAllOrAPrefix : Prop :=
  (∀ (ph : Phase) (bs : List Byte) (s : State), ∃ sent failed,
    txWrite ph bs s = (if failed then .error .transportError else .ok (),
      { s with transport := { s.transport with
          writeAnswers := s.transport.writeAnswers.tail,
          calls := s.transport.calls ++ [⟨ph, .write bs sent failed⟩] } }) ∧
    sent <+: bs ∧ (failed = false → sent = bs)) ∧
  (∀ (ph : Phase) (bs sent : List Byte) (s : State), sent <+: bs → ∃ answers t,
    txWrite ph bs { s with transport := { s.transport with writeAnswers := answers } } = (.error .transportError, t) ∧
    txStream t.transport.calls = txStream s.transport.calls ++ sent)

/-! ### The operations -/

/-- R90, R91, R93: what ENTER does in every state in which it may be issued, whatever the transport answers: it sets `synchronized`
exactly on the byte 0x79, and on a failure the bit keeps the value it had. That it runs as usual while `synchronized` is already true,
and leaves it true on a failure, is the spec's decision D5 (R91), log 11. That a stream with nothing left answers as a timeout is log 5. -/
def Obligations.EnterSynchronizesOnAckOnly : Prop :=
  ∀ (s : State), Ready s →
    (∀ rest, WriteCompletes s → s.transport.incoming = .byte 0x79 :: rest →
      exec .enter s = .next { s.after [wrote [0x7F], readAll .rxAck [0x79]] rest (.ok .unit) with synchronized := true }) ∧
    (∀ b rest, WriteCompletes s → s.transport.incoming = .byte b :: rest → b ≠ 0x79 →
      exec .enter s = .next (s.after [wrote [0x7F], readAll .rxAck [b]] rest (.err .noResponse))) ∧
    (∀ rest, WriteCompletes s → Stops s.transport.incoming rest →
      exec .enter s = .next (s.after [wrote [0x7F], ⟨.rxAck, .read 1 [] false⟩] rest (.err .noResponse))) ∧
    (∀ rest, WriteCompletes s → s.transport.incoming = .failure :: rest →
      exec .enter s = .next (s.after [wrote [0x7F], ⟨.rxAck, .read 1 [] true⟩] rest (.err .transportError))) ∧
    (∀ k, nextWriteAnswer s = .fails k →
      exec .enter s = .next (s.after [⟨.tx, .write [0x7F] (List.take k [0x7F]) true⟩] s.transport.incoming
        (.err .transportError)))

/-- R100, R102, R103, R112: what SEND_COMMAND does while synchronized, for every opcode, whatever the transport answers. That a Nacked
result carries the detail, the byte or the timeout, is the spec's decision D20 (R112), log 21. That a stream with nothing left answers
as a timeout is log 5. -/
def Obligations.SendCommandWritesFrameAndTestsAck : Prop :=
  ∀ (s : State) (o : Byte), Ready s → s.synchronized = true →
    (∀ rest, WriteCompletes s → s.transport.incoming = .byte 0x79 :: rest →
      exec (.sendCommand o) s = .next (s.after [wrote [o, o ^^^ 0xFF], readAll .rxAck [0x79]] rest (.ok .unit))) ∧
    (∀ b rest, WriteCompletes s → s.transport.incoming = .byte b :: rest → b ≠ 0x79 →
      exec (.sendCommand o) s = .next (s.after [wrote [o, o ^^^ 0xFF], readAll .rxAck [b]] rest
        (.err (.nacked (.byte b))))) ∧
    (∀ rest, WriteCompletes s → Stops s.transport.incoming rest →
      exec (.sendCommand o) s = .next (s.after [wrote [o, o ^^^ 0xFF], ⟨.rxAck, .read 1 [] false⟩] rest
        (.err (.nacked .timeout)))) ∧
    (∀ rest, WriteCompletes s → s.transport.incoming = .failure :: rest →
      exec (.sendCommand o) s = .next (s.after [wrote [o, o ^^^ 0xFF], ⟨.rxAck, .read 1 [] true⟩] rest
        (.err .transportError))) ∧
    (∀ k, nextWriteAnswer s = .fails k →
      exec (.sendCommand o) s = .next (s.after [⟨.tx, .write [o, o ^^^ 0xFF] (List.take k [o, o ^^^ 0xFF]) true⟩]
        s.transport.incoming (.err .transportError)))

/-- A standard command issued while not synchronized returns Refused at once: no transport call, nothing consumed, no state of the
block changed; and nothing else is ever refused. The outcome is the spec's own decision D4 (R101, R135), as log 8 takes it. -/
def Obligations.StandardCommandsRefusedBeforeHandshake : Prop :=
  (∀ (s : State) (i : Instr), Ready s → s.synchronized = false →
    ((∃ o, i = .sendCommand o) ∨ i = .getVersion ∨ i = .getChipId) →
    exec i s = .next { s with delivered := s.delivered ++ [.err .refused] }) ∧
  (∀ (i : Instr) (s t : State), exec i s = .next t →
    ∃ r, t.delivered = s.delivered ++ [r] ∧
      (r.status = .refused ↔ s.synchronized = false ∧ ((∃ o, i = .sendCommand o) ∨ i = .getVersion ∨ i = .getChipId)))

/-- R104, R68, R105, R109: GET_VERSION on a whole reply returns the byte after the length byte, consumes exactly `4 + L` bytes, and
neither the body nor the trailing byte matters; with `L = 0` no body is read. That the trailing byte is not compared is the spec's
decision D6 (R109); that no body call is made with `L = 0` is its decision D7, log 12. -/
def Obligations.GetVersionReturnsByteAfterLength : Prop :=
  ∀ (s : State) (len ver trail : Byte) (body : List Byte) (rest : List RxItem),
    Ready s → s.synchronized = true → WriteCompletes s → body.length = len.toNat →
    s.transport.incoming = bytesIn ([0x79, len, ver] ++ body ++ [trail]) ++ rest →
    exec .getVersion s = .next (s.after
      ([wrote [0x01, 0xFE], readAll .rxAck [0x79], readAll .rxLen [len], readAll .rxVal [ver]] ++
        (if len = 0 then [] else [readAll .rxBody body]) ++ [readAll .rxTail [trail]])
      rest (.ok (.u8 ver)))

/-- R104, R133, R147: GET_VERSION on an acknowledged reply that stops early is ShortRead with no value; the bytes that did arrive are
consumed (the spec's decision D10), and nothing else of the block changes. That a stream with nothing left answers as a timeout is
log 5; that with `L = 0` the trailing byte is read next is the decision D7, log 12. -/
def Obligations.GetVersionCutShort : Prop :=
  ∀ (s : State) (got : List Byte) (stop rest : List RxItem),
    Ready s → s.synchronized = true → WriteCompletes s → Stops stop rest →
    (got.length < 3 ∨ ∃ len, got[1]? = some len ∧ got.length < 4 + len.toNat) → got[0]? = some 0x79 →
    s.transport.incoming = bytesIn got ++ stop →
    ∃ cs, exec .getVersion s = .next (s.after cs rest (.err .shortRead)) ∧
      txStream cs = [0x01, 0xFE] ∧ rxTaken cs = got

/-- R107, R69, R108, R109: GET_CHIP_ID on a whole reply returns the two identifier bytes big-endian, whatever the length byte and the
trailing byte hold, and consumes exactly 5 bytes. That the trailing byte is not compared is the spec's decision D6 (R109). -/
def Obligations.GetChipIdIgnoresLengthAndTrailer : Prop :=
  ∀ (s : State) (len b0 b1 trail : Byte) (rest : List RxItem),
    Ready s → s.synchronized = true → WriteCompletes s →
    s.transport.incoming = bytesIn [0x79, len, b0, b1, trail] ++ rest →
    exec .getChipId s = .next (s.after
      [wrote [0x02, 0xFD], readAll .rxAck [0x79], readAll .rxLen [len], readAll .rxVal [b0, b1],
        readAll .rxTail [trail]] rest (.ok (.u16 (assembleChipId b0 b1))))

/-- R107, R133: GET_CHIP_ID on an acknowledged reply that stops before its fifth byte is ShortRead with no value; the bytes that did
arrive are consumed (the spec's decision D10). That a stream with nothing left answers as a timeout is log 5. -/
def Obligations.GetChipIdCutShort : Prop :=
  ∀ (s : State) (got : List Byte) (stop rest : List RxItem),
    Ready s → s.synchronized = true → WriteCompletes s → Stops stop rest →
    got.length < 5 → got[0]? = some 0x79 → s.transport.incoming = bytesIn got ++ stop →
    ∃ cs, exec .getChipId s = .next (s.after cs rest (.err .shortRead)) ∧
      txStream cs = [0x02, 0xFD] ∧ rxTaken cs = got

/-- R110, R80: GET_VERSION and GET_CHIP_ID send their frame through SEND_COMMAND. Where SEND_COMMAND of their opcode does not succeed they
end exactly as it does, having read nothing more; where it succeeds their calls begin with its calls. -/
def Obligations.VersionAndChipIdGoThroughSendCommand : Prop :=
  ∀ (i : Instr) (o : Byte), (i = .getVersion ∧ o = 0x01) ∨ (i = .getChipId ∧ o = 0x02) →
    ∀ (s t u : State) (r : Result), exec (.sendCommand o) s = .next t → t.delivered = s.delivered ++ [r] →
      exec i s = .next u →
      (r ≠ .ok .unit → u = t) ∧
      (r = .ok .unit → ∃ cs, u.transport.calls = t.transport.calls ++ cs)

/-- R120, R121, R123, R126: what READ_MEMORY does in either mode, for every address and length, whatever the transport answers: the
`length` bytes in arrival order, or no data at all. That a read of size 0 makes no call is the spec's decision D7, log 12, and that the
bytes of a short read are consumed its decision D10. That a stream with nothing left answers as a timeout is log 5, and that a failing
read loses the bytes before the failure is log 7. -/
def Obligations.ReadMemoryReturnsAllOrNothing : Prop :=
  ∀ (s : State) (a : Word) (n : Half), Ready s →
    (∀ d rest, WriteCompletes s → n ≠ 0 → d.length = n.toNat → s.transport.incoming = bytesIn d ++ rest →
      exec (.readMemory a n) s = .next (s.after [wrote (0x11 :: addressBytes a), readAll .rxRaw d] rest
        (.ok (.bytes d)))) ∧
    (WriteCompletes s → n = 0 →
      exec (.readMemory a n) s = .next (s.after [wrote (0x11 :: addressBytes a)] s.transport.incoming
        (.ok (.bytes [])))) ∧
    (∀ d stop rest, WriteCompletes s → d.length < n.toNat → Stops stop rest →
      s.transport.incoming = bytesIn d ++ stop →
      exec (.readMemory a n) s = .next (s.after
        [wrote (0x11 :: addressBytes a), ⟨.rxRaw, .read n.toNat d false⟩] rest (.err .shortRead))) ∧
    (∀ d rest, WriteCompletes s → d.length < n.toNat → s.transport.incoming = bytesIn d ++ .failure :: rest →
      exec (.readMemory a n) s = .next (s.after
        [wrote (0x11 :: addressBytes a), ⟨.rxRaw, .read n.toNat d true⟩] rest (.err .transportError))) ∧
    (∀ k, nextWriteAnswer s = .fails k →
      exec (.readMemory a n) s = .next (s.after
        [⟨.tx, .write (0x11 :: addressBytes a) (List.take k (0x11 :: addressBytes a)) true⟩] s.transport.incoming
        (.err .transportError)))

/-- R121: READ_MEMORY runs in any mode, right after reset too, and neither reads nor writes `synchronized`: run in the other mode it
does the same, and leaves the bit as it was. -/
def Obligations.ReadMemoryBlindToMode : Prop :=
  Ready State.reset ∧
  ∀ (s : State) (a : Word) (n : Half) (b : Bool), Ready s →
    ∃ t, exec (.readMemory a n) s = .next t ∧ t.synchronized = s.synchronized ∧
      exec (.readMemory a n) { s with synchronized := b } = .next { t with synchronized := b }

/-- R111, R31: two GET_VERSIONs in succession on a stream that holds the same whole reply twice return the same value, transmit the
same two bytes and make the same reads; the same of GET_CHIP_ID, which the spec derives. Where fewer than two answers to writes are
listed, that the writes complete is log 6. That the trailing byte is not compared is D6, and the skipped body of size 0 D7, log 12. -/
def Obligations.RepeatedQueriesAnswerAlike : Prop :=
  (∀ (s : State) (len ver trail : Byte) (body : List Byte) (rest : List RxItem),
    Ready s → s.synchronized = true → (∀ w ∈ s.transport.writeAnswers, w = .completes) → body.length = len.toNat →
    s.transport.incoming = bytesIn ([0x79, len, ver] ++ body ++ [trail] ++ [0x79, len, ver] ++ body ++ [trail]) ++ rest →
    ∃ t u cs, exec .getVersion s = .next t ∧ exec .getVersion t = .next u ∧
      u.delivered = s.delivered ++ [.ok (.u8 ver), .ok (.u8 ver)] ∧
      u.transport.calls = s.transport.calls ++ cs ++ cs ∧ t.transport.calls = s.transport.calls ++ cs ∧
      txStream cs = [0x01, 0xFE] ∧ u.transport.incoming = rest ∧ t.synchronized = true ∧ u.synchronized = true) ∧
  (∀ (s : State) (len b0 b1 trail : Byte) (rest : List RxItem),
    Ready s → s.synchronized = true → (∀ w ∈ s.transport.writeAnswers, w = .completes) →
    s.transport.incoming = bytesIn [0x79, len, b0, b1, trail, 0x79, len, b0, b1, trail] ++ rest →
    ∃ t u cs, exec .getChipId s = .next t ∧ exec .getChipId t = .next u ∧
      u.delivered = s.delivered ++ [.ok (.u16 (assembleChipId b0 b1)), .ok (.u16 (assembleChipId b0 b1))] ∧
      u.transport.calls = s.transport.calls ++ cs ++ cs ∧ t.transport.calls = s.transport.calls ++ cs ∧
      txStream cs = [0x02, 0xFD] ∧ u.transport.incoming = rest ∧ t.synchronized = true ∧ u.synchronized = true)

/-! ### Every operation -/

/-- R12, R140, R174: wherever an operation may be issued it completes: it delivers exactly one result, whose value on success is of
the operation's kind, and the sequencer is IDLE. For a standard command issued while `synchronized` is false this is the model's
choice, log 8: it answers a next state that delivers the result Refused of the spec's decision D4, where R101 would have a model refuse. -/
def Obligations.EveryOperationCompletes : Prop :=
  ∀ (i : Instr) (s : State), Ready s →
    ∃ t r, exec i s = .next t ∧ t.delivered = s.delivered ++ [r] ∧ (∀ v, r = .ok v → ValueFits i v) ∧ t.activity = .idle

/-- R33, R58, R167, 93 U4, U5: an operation issued with the transport closed has no step, and one issued while another is in progress is
refused (log 13, log 14). -/
def Obligations.NoOperationWhileClosedOrBusy : Prop :=
  ∀ (i : Instr) (s : State),
    (s.transport.isOpen = false → exec i s = .fault .transportClosed ∧ step s = .fault .transportClosed) ∧
    (s.transport.isOpen = true → s.activity ≠ .idle → exec i s = .refused .busy)

/-- R152 (derived there from the algorithms): which outcome each operation can have: no other is ever delivered, and each is delivered in some state. -/
def Obligations.OutcomesAreThoseOfTheTable : Prop :=
  (∀ (i : Instr) (s t : State) (r : Result), exec i s = .next t → t.delivered = s.delivered ++ [r] →
    r.status ∈ allowedStatus i) ∧
  (∀ (i : Instr) (st : Status), st ∈ allowedStatus i → (∀ a, i = .readMemory a 0 → st ≠ .shortRead) →
    ∃ s t r, Ready s ∧ exec i s = .next t ∧ t.delivered = s.delivered ++ [r] ∧ r.status = st)

/-- R131, R132, R133: where each error comes from, told by the last transport call: NoResponse and Nacked from an acknowledge read that
is not the one byte 0x79, ShortRead from a later read with fewer bytes than asked. -/
def Obligations.ErrorKindNamesItsCause : Prop :=
  ∀ (i : Instr) (s t : State), exec i s = .next t →
    ∃ cs r, t.transport.calls = s.transport.calls ++ cs ∧ t.delivered = s.delivered ++ [r] ∧
      (r.status = .noResponse ↔ i = .enter ∧
        ∃ c taken, cs = [c, ⟨.rxAck, .read 1 taken false⟩] ∧ taken ≠ [0x79]) ∧
      (r.status = .nacked ↔ requiresSynchronized i = true ∧
        ∃ c taken, cs = [c, ⟨.rxAck, .read 1 taken false⟩] ∧ taken ≠ [0x79]) ∧
      (r.status = .shortRead ↔
        ∃ ph n taken, cs.getLast? = some ⟨ph, .read n taken false⟩ ∧ ph ≠ .rxAck ∧ taken.length < n)

/-- R134, R13, R139: TransportError is delivered exactly when a call failed, that call is the last one made, and after it the block
latches nothing: the flag is as it was, which is the spec's decision D9 (R134). -/
def Obligations.TransportErrorEndsTheOperation : Prop :=
  ∀ (i : Instr) (s t : State), exec i s = .next t →
    ∃ cs r, t.transport.calls = s.transport.calls ++ cs ∧ t.delivered = s.delivered ++ [r] ∧
      (r.status = .transportError ↔ ∃ c ∈ cs, c.failed = true) ∧
      (∀ c ∈ cs.dropLast, c.failed = false) ∧
      (r.status = .transportError → t.synchronized = s.synchronized)

/-- R21, R145: `synchronized` is set by ENTER exactly when it wrote the sync byte and the one byte it read is 0x79, and by nothing else;
no operation and no error clears it; construction does. -/
def Obligations.OnlyEnterSetsAndNothingClearsTheFlag : Prop :=
  (∀ (i : Instr) (s t : State), exec i s = .next t →
    (t.synchronized = true ↔ s.synchronized = true ∨
      (i = .enter ∧ t.transport.calls = s.transport.calls ++ [wrote [0x7F], readAll .rxAck [0x79]]))) ∧
  (∀ (s t : State), step s = .next t → s.synchronized = true → t.synchronized = true) ∧
  (∀ (c : Settings) (x : Transport), (State.construct c x).synchronized = false)

/-- R28, R31, R140, R142: the frame of every operation: the configuration, the requests not yet issued and the transport's being open
are unchanged; the sequencer is IDLE as before; one result is added; calls are only added; the flag changes at most by ENTER; the
environment's answer to a write is used up exactly when a call was made; and an operation that made no call left the receive
stream as it was. The block has no memory (R34). -/
def Obligations.OperationsLeaveTheRestUnchanged : Prop :=
  ∀ (i : Instr) (s t : State), exec i s = .next t →
    t.settings = s.settings ∧ t.requests = s.requests ∧ t.transport.isOpen = s.transport.isOpen ∧
    t.activity = s.activity ∧ t.activity = .idle ∧
    (i ≠ .enter → t.synchronized = s.synchronized) ∧
    (∃ r, t.delivered = s.delivered ++ [r]) ∧
    ∃ cs, t.transport.calls = s.transport.calls ++ cs ∧
      (cs = [] → t.transport.incoming = s.transport.incoming ∧ t.transport.writeAnswers = s.transport.writeAnswers) ∧
      (cs ≠ [] → t.transport.writeAnswers = s.transport.writeAnswers.tail)

/-- R54, R40: an operation that makes a call writes first, one whole frame, and only then reads. That the frame goes out in one call is
the spec's decision D16 (R48), and that a failed write leaves a prefix of it on the wire, after which nothing is read, is the spec's own
derivation (R49, 93 U17). SEND_COMMAND's frame is `[o, o XOR 0xFF]`, READ_MEMORY's has five bytes, and ENTER makes exactly one read
after its write, of one byte. -/
def Obligations.FrameWrittenBeforeAnyRead : Prop :=
  (∀ (i : Instr) (s t : State), exec i s = .next t →
    t.transport.calls = s.transport.calls ∨
    ∃ sent failed reads,
      t.transport.calls = s.transport.calls ++ ⟨.tx, .write (frame i) sent failed⟩ :: reads ∧
      (∀ c ∈ reads, c.isWrite = false) ∧ sent <+: frame i ∧
      (failed = false → sent = frame i) ∧ (failed = true → reads = []) ∧
      (i = .enter → failed = false → ∃ taken f, reads = [⟨.rxAck, .read 1 taken f⟩]) ∧
      txStream t.transport.calls = txStream s.transport.calls ++ sent) ∧
  (∀ (o : Byte), frame (.sendCommand o) = [o, o ^^^ 0xFF]) ∧
  (∀ (a : Word) (n : Half), (frame (.readMemory a n)).length = 5)

/-- R25 (derived there from the algorithms): an operation's calls follow its row of the table in phase and size, the call of a read of
size 0 left out, by the spec's decision D7, log 12 (for GET_VERSION by the length byte it read). The sequence is left at the first
error: every call but the last was whole, and an acknowledge read that is not the one byte 0x79 is the last call (R131, R132). An Ok
has gone through the whole row, and the sequencer is then IDLE. -/
def Obligations.PhasesFollowTheTable : Prop :=
  ∀ (i : Instr) (s t : State) (r : Result), exec i s = .next t → t.delivered = s.delivered ++ [r] →
    t.activity = .idle ∧
    ∃ cs len, t.transport.calls = s.transport.calls ++ cs ∧
      cs.map (fun c => (c.phase, c.size)) <+: callSequence len i ∧
      (i = .getVersion → .rxVal ∈ cs.map Call.phase → readAll .rxLen [len] ∈ cs) ∧
      (∀ c ∈ cs.dropLast, c.Whole ∧ (c.phase = .rxAck → c = readAll .rxAck [0x79])) ∧
      (r.status = .ok → cs.map (fun c => (c.phase, c.size)) = callSequence len i ∧
        ∀ c ∈ cs, c.Whole ∧ (c.phase = .rxAck → c = readAll .rxAck [0x79])) ∧
      (r.status = .refused → cs = [])

/-- R106: GET_VERSION makes at most six transport calls, none when refused, at least two when neither refused nor failed by the
transport, and on success consumes exactly `4 + L` reply bytes, `L` being the byte its length read took. -/
def Obligations.GetVersionCallCounts : Prop :=
  ∀ (s t : State) (r : Result), exec .getVersion s = .next t → t.delivered = s.delivered ++ [r] →
    ∃ cs, t.transport.calls = s.transport.calls ++ cs ∧ cs.length ≤ 6 ∧
      (r.status = .refused → cs = []) ∧
      (r.status ≠ .refused → r.status ≠ .transportError → 2 ≤ cs.length) ∧
      (r.status = .ok → ∃ len, readAll .rxLen [len] ∈ cs ∧ (rxTaken cs).length = 4 + len.toNat)

/-- R174: every operation makes at most the number of transport calls the rule gives it, one write and five reads at the most, so its duration is at most `T_WRITE` and five times `T_READ`;
`T_WRITE` is OPEN (log 16). -/
def Obligations.DurationIsBounded : Prop :=
  ∀ (i : Instr) (s t : State), exec i s = .next t →
    ∃ cs, t.transport.calls = s.transport.calls ++ cs ∧ cs.length ≤ maxCalls i ∧
      durationBound s.settings cs ≤ Config.T_WRITE + 5 * s.settings.tRead

/-- R31: no hidden state. Two states that agree on the flag and on what the transport will answer give the same result, the same calls,
the same flag and the same remaining stream, whatever else they hold: earlier results, earlier calls, requests to come, settings. -/
def Obligations.OnlyTheFlagCarriesOver : Prop :=
  ∀ (i : Instr) (s s' t t' : State),
    s.synchronized = s'.synchronized → s.transport.incoming = s'.transport.incoming →
    s.transport.writeAnswers = s'.transport.writeAnswers →
    exec i s = .next t → exec i s' = .next t' →
    ∃ r cs, t.delivered = s.delivered ++ [r] ∧ t'.delivered = s'.delivered ++ [r] ∧
      t.transport.calls = s.transport.calls ++ cs ∧ t'.transport.calls = s'.transport.calls ++ cs ∧
      t.synchronized = t'.synchronized ∧ t.transport.incoming = t'.transport.incoming ∧
      t.transport.writeAnswers = t'.transport.writeAnswers

/-- R101, R163: a host that issues standard commands only while synchronized is never refused, and one that breaks the order always is. -/
def Obligations.StartUpOrderDecidesRefusal : Prop :=
  ∀ (i : Instr) (s t : State), exec i s = .next t → noneRefused t = (noneRefused s && mayIssue i s)

/-! ### The sequencer -/

/-- R24: the two renderings agree. An operation as one atomic step leaves exactly the state that accepting it and running its
micro-steps to IDLE leaves: the same result, the same transmitted bytes, the same consumed bytes. -/
def Obligations.AtomicStepEqualsMicroSteps : Prop :=
  ∀ (i : Instr) (s : State), Ready s → exec i s = .next (finish (begin i s))

/-- R25, R52: a micro-step makes at most one transport call, in the phase the sequencer stands in, and delivers a result exactly when
the sequencer becomes IDLE by it. That it does so with the transport closed too is the model's choice, log 24. -/
def Obligations.MicroStepMakesOneCall : Prop :=
  ∀ (s : State), ∃ cs, (microStep s).transport.calls = s.transport.calls ++ cs ∧ cs.length ≤ 1 ∧
    (∀ c ∈ cs, c.phase = s.activity.phase) ∧
    (s.activity ≠ .idle →
      ((microStep s).activity = .idle ↔ ∃ r, (microStep s).delivered = s.delivered ++ [r]))

/-- R174: every operation terminates: from every position of the sequencer, the micro-steps reach IDLE. That they do so with the
transport closed too is the model's choice, log 24. -/
def Obligations.EveryOperationTerminates : Prop :=
  ∀ (s : State), (finish s).activity = .idle ∧ ∀ n, 6 ≤ n → microSteps n s = finish s

/-! ### The machine -/

/-- R29, R35, R53: what a step does. A request that decodes is taken off the port and its operation run; with none issued nothing
happens; an operation in progress first runs to its end. -/
def Obligations.StepRunsTheDecodedRequest : Prop :=
  (∀ (s : State) (r : Request) (rest : List Request) (i : Instr), Ready s → s.requests = r :: rest → decode r = .ok i →
    step s = exec i { s with requests := rest }) ∧
  (∀ (s : State), Ready s → s.requests = [] → step s = .next s) ∧
  (∀ (s : State), s.transport.isOpen = true → s.activity ≠ .idle → step s = .next (finish s)) ∧
  (∀ (s : State) (nbits w : Nat) (i : Instr), Ready s → decodeTableWord nbits w = some i →
    step (s.withFetchWord nbits w) = exec i s)

/-- R32, R35, R160, R162: construction leaves the flag false, the sequencer IDLE, nothing outstanding, the configuration as supplied and
the transport untouched; reset has the default baud rate and timeout, and its first step does nothing. The other values of reset are
the model's choice (log 9), and so is that the status output shows the bit where the transport handed over is closed (log 24). -/
def Obligations.ConstructionIsReset : Prop :=
  (∀ (c : Settings) (x : Transport),
    (State.construct c x).synchronized = false ∧ (State.construct c x).activity.phase = .idle ∧
    (State.construct c x).settings = c ∧ (State.construct c x).transport = x ∧
    (State.construct c x).requests = [] ∧ (State.construct c x).delivered = [] ∧
    statusOutput (State.construct c x) = some false) ∧
  (∃ c x, State.reset = State.construct c x ∧ c.baud = 115200 ∧ c.tRead = 1000000000 ∧ x.calls = [] ∧ x.isOpen = true) ∧
  step State.reset = .next State.reset

/-- R28, R53: a step never changes the configuration, takes requests off the port only from the front, at most one, only adds results
and calls, and leaves the transport open. The sequencer is IDLE after every step that answers: from a state with an operation in
progress this is the model's choice that step runs it to its end (log 14), and otherwise that step runs an operation whole (log 19). -/
def Obligations.StepKeepsConfigurationAndHistory : Prop :=
  ∀ (s t : State), step s = .next t →
    t.settings = s.settings ∧ t.requests <:+ s.requests ∧ s.requests.length ≤ t.requests.length + 1 ∧
    s.delivered <+: t.delivered ∧ s.transport.calls <+: t.transport.calls ∧
    t.transport.isOpen = true ∧ t.activity = .idle

/-- R41 with the spec's decisions D8 and D10: no byte of the receive stream is returned twice, skipped or put back: over a step, the bytes the new calls took and the bytes
still unread are, in order, the bytes that were unread before. -/
def Obligations.ReceiveStreamConsumedOnce : Prop :=
  ∀ (s t : State), step s = .next t →
    ∃ cs, t.transport.calls = s.transport.calls ++ cs ∧
      streamBytes s.transport.incoming = rxTaken cs ++ streamBytes t.transport.incoming

/-- R21, R22, R40, R48: every step keeps the invariant: the flag is true only after a successful handshake, every command frame ever
written came after one, and every transport call ever made has a legal shape. -/
def Obligations.StepKeepsTheInvariant : Prop :=
  ∀ (s t : State), Invariant s → step s = .next t → Invariant t

/-- R21, R32: the invariant holds of a session constructed with legal settings on a transport it has made no call on, so of reset. -/
def Obligations.ConstructionMeetsTheInvariant : Prop :=
  (∀ (c : Settings) (x : Transport), c.wellFormed = true → x.calls = [] → Invariant (State.construct c x)) ∧ Invariant State.reset

/-- R41, R56, R166, R33: what the host and the device do between steps keeps the invariant and touches nothing of the block: the flag,
the sequencer, the settings, the results and the calls are as they were; closing clears only the transport's being open. That a request
joins the end of the list of calls the host is still to make, in a busy or closed state too, and changes nothing else, is the model's
own, log 2: the spec has no queue of requests (R29, R58). That bytes join the end of the receive stream, whatever waits there, is the
spec's decision D8 with the unbounded backlog of log 16. -/
def Obligations.OutsideActionsKeepTheInvariant : Prop :=
  (∀ (s : State) (r : Request) (items : List RxItem), Invariant s →
    Invariant (present r s) ∧ Invariant (arrive items s) ∧ Invariant (close s)) ∧
  (∀ (s : State) (r : Request) (items : List RxItem) (t : State), t = present r s ∨ t = arrive items s ∨ t = close s →
    t.synchronized = s.synchronized ∧ t.activity = s.activity ∧ t.settings = s.settings ∧ t.delivered = s.delivered ∧
    t.transport.calls = s.transport.calls ∧ t.transport.writeAnswers = s.transport.writeAnswers) ∧
  (∀ (s : State) (r : Request),
    (present r s).requests = s.requests ++ [r] ∧ (present r s).transport = s.transport) ∧
  (∀ (s : State) (items : List RxItem),
    (arrive items s).transport.incoming = s.transport.incoming ++ items ∧
    (arrive items s).transport.isOpen = s.transport.isOpen ∧ (arrive items s).requests = s.requests) ∧
  (∀ (s : State), (close s).transport.isOpen = false ∧
    (close s).transport.incoming = s.transport.incoming ∧ (close s).requests = s.requests)

/-- The status numbers, the spec's own numbering (R136, its decision D3): 0 to 5 for the six outcomes, all different, and 6 and 7 never produced. -/
def Obligations.StatusCodesAreZeroToFive : Prop :=
  Status.ok.code = 0 ∧ Status.noResponse.code = 1 ∧ Status.nacked.code = 2 ∧ Status.shortRead.code = 3 ∧
  Status.transportError.code = 4 ∧ Status.refused.code = 5 ∧
  (∀ (r : Result), r.status.code ≠ 6 ∧ r.status.code ≠ 7) ∧
  (∀ (a b : Status), a.code = b.code → a = b)
end

