-- ==== Sys2Proof/Laws/Decode.lean ====
section
/-! SUPPORT. Small laws of the frames: their lengths, the values assembled from bytes as numbers, and the injectivity of the frames' parts. -/

namespace Sys2Proof

@[simp] theorem frame_enter : frame .enter = [0x7F] := rfl
@[simp] theorem frame_sendCommand (o : Byte) : frame (.sendCommand o) = commandFrame o := rfl
@[simp] theorem frame_getVersion : frame .getVersion = commandFrame 0x01 := rfl
@[simp] theorem frame_getChipId : frame .getChipId = commandFrame 0x02 := rfl
@[simp] theorem frame_readMemory (a : Word) (n : Half) : frame (.readMemory a n) = 0x11 :: addressBytes a := rfl

@[simp] theorem commandFrame_length (o : Byte) : (commandFrame o).length = 2 := rfl
@[simp] theorem addressBytes_length (a : Word) : (addressBytes a).length = 4 := rfl

theorem commandFrame_injective {o p : Byte} (h : commandFrame o = commandFrame p) : o = p :=
  (List.cons.inj h).1

/-- A disjoint `or` of a low part and a shifted part is their sum. -/
theorem or_shiftLeft_of_lt {x i : Nat} (y : Nat) (h : x < 2 ^ i) : x ||| y <<< i = x + y * 2 ^ i := by
  rw [Nat.or_comm, ← Nat.shiftLeft_add_eq_or_of_lt h, Nat.shiftLeft_eq, Nat.add_comm]

/-- The join of four bytes as a number: little-endian weights (R124). -/
theorem joinLe32_toNat (d0 d1 d2 d3 : Byte) :
    (joinLe32 d0 d1 d2 d3).toNat = d0.toNat + 256 * d1.toNat + 65536 * d2.toNat + 16777216 * d3.toNat := by
  have h0 := d0.isLt
  have h1 := d1.isLt
  have h2 := d2.isLt
  have h3 := d3.isLt
  have e1 : d1.toNat <<< 8 % 2 ^ 32 = d1.toNat <<< 8 := by rw [Nat.shiftLeft_eq]; omega
  have e2 : d2.toNat <<< 16 % 2 ^ 32 = d2.toNat <<< 16 := by rw [Nat.shiftLeft_eq]; omega
  have e3 : d3.toNat <<< 24 % 2 ^ 32 = d3.toNat <<< 24 := by rw [Nat.shiftLeft_eq]; omega
  simp only [joinLe32, BitVec.toNat_or, BitVec.toNat_shiftLeft,
    BitVec.toNat_setWidth_of_le (show 8 ≤ 32 by decide), e1, e2, e3]
  rw [or_shiftLeft_of_lt d1.toNat h0, or_shiftLeft_of_lt d2.toNat (by omega), or_shiftLeft_of_lt d3.toNat (by omega)]
  omega

/-- Joining the four bytes of the split of R65 gives the address back. -/
theorem joinLe32_split (a : Word) :
    joinLe32 (a.extractLsb' 0 8) (a.extractLsb' 8 8) (a.extractLsb' 16 8) (a.extractLsb' 24 8) = a := by
  apply BitVec.eq_of_toNat_eq
  have h := a.isLt
  simp only [joinLe32_toNat, BitVec.extractLsb'_toNat, Nat.shiftRight_eq_div_pow]
  omega

/-- Splitting four joined bytes gives them back. -/
theorem addressBytes_join (d0 d1 d2 d3 : Byte) : addressBytes (joinLe32 d0 d1 d2 d3) = [d0, d1, d2, d3] := by
  have h0 := d0.isLt
  have h1 := d1.isLt
  have h2 := d2.isLt
  have h3 := d3.isLt
  simp only [addressBytes, List.cons.injEq, and_true]
  refine ⟨?_, ?_, ?_, ?_⟩ <;> apply BitVec.eq_of_toNat_eq <;>
    simp only [BitVec.extractLsb'_toNat, joinLe32_toNat, Nat.shiftRight_eq_div_pow] <;> omega

theorem addressBytes_injective {a b : Word} (h : addressBytes a = addressBytes b) : a = b := by
  simp only [addressBytes, List.cons.injEq, and_true] at h
  obtain ⟨h0, h1, h2, h3⟩ := h
  rw [← joinLe32_split a, ← joinLe32_split b, h0, h1, h2, h3]

/-- The bytes of a table word do not depend on what stands above them. -/
theorem bytesOfTableWord_mod (n w : Nat) : bytesOfTableWord n (w % 256 ^ n) = bytesOfTableWord n w := by
  induction n generalizing w with
  | zero => rfl
  | succ n ih =>
    have e : w % 256 ^ (n + 1) / 256 ^ n = w / 256 ^ n % 256 := by
      rw [Nat.pow_succ, Nat.mod_mul_right_div_self]
    have m : w % 256 ^ (n + 1) % 256 ^ n = w % 256 ^ n := by
      rw [Nat.pow_succ, Nat.mod_mul_right_mod]
    simp only [bytesOfTableWord, e]
    rw [← ih (w % 256 ^ (n + 1)), m, ih]
    congr 1
    apply BitVec.eq_of_toNat_eq
    simp

/-- A number's last byte is the last byte of its frame. -/
theorem bytesOfTableWord_snoc (n w : Nat) (b : Byte) :
    bytesOfTableWord (n + 1) (w * 256 + b.toNat) = bytesOfTableWord n w ++ [b] := by
  have hb := b.isLt
  induction n with
  | zero =>
    simp only [bytesOfTableWord, Nat.pow_zero, Nat.div_one, List.nil_append, List.cons.injEq, and_true]
    apply BitVec.eq_of_toNat_eq
    simp
    omega
  | succ n ih =>
    have e : (w * 256 + b.toNat) / 256 ^ (n + 1) = w / 256 ^ n := by
      rw [Nat.pow_succ', ← Nat.div_div_eq_div_mul]
      congr 1
      omega
    rw [bytesOfTableWord, ih, e]
    rfl

/-- The chip identifier as a number: big-endian weights (R71). -/
theorem assembleChipId_toNat (b0 b1 : Byte) :
    (Machine.assembleChipId b0 b1).toNat = b0.toNat * 256 + b1.toNat := by
  have h0 := b0.isLt
  have h1 := b1.isLt
  have e : b0.toNat <<< 8 % 2 ^ 16 = b0.toNat <<< 8 := by rw [Nat.shiftLeft_eq]; omega
  simp only [Machine.assembleChipId, BitVec.toNat_or, BitVec.toNat_shiftLeft,
    BitVec.toNat_setWidth_of_le (show 8 ≤ 16 by decide), e]
  rw [← Nat.shiftLeft_add_eq_or_of_lt h1, Nat.shiftLeft_eq]

end Sys2Proof
end

