-- ==== Sys2Proof/Laws/State.lean ====
section
/-! SUPPORT. What each update of the state leaves in each field: one lemma for each update and field, so that no later proof unfolds an update. -/

namespace Sys2Proof.Machine

@[simp] theorem setSynchronized_synchronized (s : State) :
    (setSynchronized s).synchronized = true := rfl
@[simp] theorem setSynchronized_activity (s : State) :
    (setSynchronized s).activity = s.activity := rfl
@[simp] theorem setSynchronized_settings (s : State) :
    (setSynchronized s).settings = s.settings := rfl
@[simp] theorem setSynchronized_requests (s : State) :
    (setSynchronized s).requests = s.requests := rfl
@[simp] theorem setSynchronized_delivered (s : State) :
    (setSynchronized s).delivered = s.delivered := rfl
@[simp] theorem setSynchronized_isOpen (s : State) :
    (setSynchronized s).transport.isOpen = s.transport.isOpen := rfl
@[simp] theorem setSynchronized_incoming (s : State) :
    (setSynchronized s).transport.incoming = s.transport.incoming := rfl
@[simp] theorem setSynchronized_writeAnswers (s : State) :
    (setSynchronized s).transport.writeAnswers = s.transport.writeAnswers := rfl
@[simp] theorem setSynchronized_calls (s : State) :
    (setSynchronized s).transport.calls = s.transport.calls := rfl

@[simp] theorem afterWrite_synchronized (ph : Phase) (bs sent : List Byte) (failed : Bool) (s : State) :
    (afterWrite ph bs sent failed s).synchronized = s.synchronized := rfl
@[simp] theorem afterWrite_activity (ph : Phase) (bs sent : List Byte) (failed : Bool) (s : State) :
    (afterWrite ph bs sent failed s).activity = s.activity := rfl
@[simp] theorem afterWrite_settings (ph : Phase) (bs sent : List Byte) (failed : Bool) (s : State) :
    (afterWrite ph bs sent failed s).settings = s.settings := rfl
@[simp] theorem afterWrite_requests (ph : Phase) (bs sent : List Byte) (failed : Bool) (s : State) :
    (afterWrite ph bs sent failed s).requests = s.requests := rfl
@[simp] theorem afterWrite_delivered (ph : Phase) (bs sent : List Byte) (failed : Bool) (s : State) :
    (afterWrite ph bs sent failed s).delivered = s.delivered := rfl
@[simp] theorem afterWrite_isOpen (ph : Phase) (bs sent : List Byte) (failed : Bool) (s : State) :
    (afterWrite ph bs sent failed s).transport.isOpen = s.transport.isOpen := rfl
@[simp] theorem afterWrite_incoming (ph : Phase) (bs sent : List Byte) (failed : Bool) (s : State) :
    (afterWrite ph bs sent failed s).transport.incoming = s.transport.incoming := rfl
@[simp] theorem afterWrite_writeAnswers (ph : Phase) (bs sent : List Byte) (failed : Bool) (s : State) :
    (afterWrite ph bs sent failed s).transport.writeAnswers = s.transport.writeAnswers.tail := rfl
@[simp] theorem afterWrite_calls (ph : Phase) (bs sent : List Byte) (failed : Bool) (s : State) :
    (afterWrite ph bs sent failed s).transport.calls = s.transport.calls ++ [⟨ph, .write bs sent failed⟩] := rfl

@[simp] theorem afterRead_synchronized (ph : Phase) (n : Nat) (t : Taken) (s : State) :
    (afterRead ph n t s).synchronized = s.synchronized := rfl
@[simp] theorem afterRead_activity (ph : Phase) (n : Nat) (t : Taken) (s : State) :
    (afterRead ph n t s).activity = s.activity := rfl
@[simp] theorem afterRead_settings (ph : Phase) (n : Nat) (t : Taken) (s : State) :
    (afterRead ph n t s).settings = s.settings := rfl
@[simp] theorem afterRead_requests (ph : Phase) (n : Nat) (t : Taken) (s : State) :
    (afterRead ph n t s).requests = s.requests := rfl
@[simp] theorem afterRead_delivered (ph : Phase) (n : Nat) (t : Taken) (s : State) :
    (afterRead ph n t s).delivered = s.delivered := rfl
@[simp] theorem afterRead_isOpen (ph : Phase) (n : Nat) (t : Taken) (s : State) :
    (afterRead ph n t s).transport.isOpen = s.transport.isOpen := rfl
@[simp] theorem afterRead_incoming (ph : Phase) (n : Nat) (t : Taken) (s : State) :
    (afterRead ph n t s).transport.incoming = t.rest := rfl
@[simp] theorem afterRead_writeAnswers (ph : Phase) (n : Nat) (t : Taken) (s : State) :
    (afterRead ph n t s).transport.writeAnswers = s.transport.writeAnswers := rfl
@[simp] theorem afterRead_calls (ph : Phase) (n : Nat) (t : Taken) (s : State) :
    (afterRead ph n t s).transport.calls = s.transport.calls ++ [⟨ph, .read n t.bytes t.failed⟩] := rfl

@[simp] theorem deliver_synchronized (p : Reply Value) :
    (deliver p).synchronized = p.2.synchronized := rfl
@[simp] theorem deliver_activity (p : Reply Value) :
    (deliver p).activity = .idle := rfl
@[simp] theorem deliver_settings (p : Reply Value) :
    (deliver p).settings = p.2.settings := rfl
@[simp] theorem deliver_requests (p : Reply Value) :
    (deliver p).requests = p.2.requests := rfl
@[simp] theorem deliver_delivered (p : Reply Value) :
    (deliver p).delivered = p.2.delivered ++ [resultOf p.1] := rfl
@[simp] theorem deliver_isOpen (p : Reply Value) :
    (deliver p).transport.isOpen = p.2.transport.isOpen := rfl
@[simp] theorem deliver_incoming (p : Reply Value) :
    (deliver p).transport.incoming = p.2.transport.incoming := rfl
@[simp] theorem deliver_writeAnswers (p : Reply Value) :
    (deliver p).transport.writeAnswers = p.2.transport.writeAnswers := rfl
@[simp] theorem deliver_calls (p : Reply Value) :
    (deliver p).transport.calls = p.2.transport.calls := rfl

@[simp] theorem goto_synchronized (a : Activity) (s : State) :
    (goto a s).synchronized = s.synchronized := rfl
@[simp] theorem goto_activity (a : Activity) (s : State) :
    (goto a s).activity = a := rfl
@[simp] theorem goto_settings (a : Activity) (s : State) :
    (goto a s).settings = s.settings := rfl
@[simp] theorem goto_requests (a : Activity) (s : State) :
    (goto a s).requests = s.requests := rfl
@[simp] theorem goto_delivered (a : Activity) (s : State) :
    (goto a s).delivered = s.delivered := rfl
@[simp] theorem goto_isOpen (a : Activity) (s : State) :
    (goto a s).transport.isOpen = s.transport.isOpen := rfl
@[simp] theorem goto_incoming (a : Activity) (s : State) :
    (goto a s).transport.incoming = s.transport.incoming := rfl
@[simp] theorem goto_writeAnswers (a : Activity) (s : State) :
    (goto a s).transport.writeAnswers = s.transport.writeAnswers := rfl
@[simp] theorem goto_calls (a : Activity) (s : State) :
    (goto a s).transport.calls = s.transport.calls := rfl

@[simp] theorem present_synchronized (r : Request) (s : State) :
    (present r s).synchronized = s.synchronized := rfl
@[simp] theorem present_activity (r : Request) (s : State) :
    (present r s).activity = s.activity := rfl
@[simp] theorem present_settings (r : Request) (s : State) :
    (present r s).settings = s.settings := rfl
@[simp] theorem present_requests (r : Request) (s : State) :
    (present r s).requests = s.requests ++ [r] := rfl
@[simp] theorem present_delivered (r : Request) (s : State) :
    (present r s).delivered = s.delivered := rfl
@[simp] theorem present_isOpen (r : Request) (s : State) :
    (present r s).transport.isOpen = s.transport.isOpen := rfl
@[simp] theorem present_incoming (r : Request) (s : State) :
    (present r s).transport.incoming = s.transport.incoming := rfl
@[simp] theorem present_writeAnswers (r : Request) (s : State) :
    (present r s).transport.writeAnswers = s.transport.writeAnswers := rfl
@[simp] theorem present_calls (r : Request) (s : State) :
    (present r s).transport.calls = s.transport.calls := rfl

@[simp] theorem arrive_synchronized (items : List RxItem) (s : State) :
    (arrive items s).synchronized = s.synchronized := rfl
@[simp] theorem arrive_activity (items : List RxItem) (s : State) :
    (arrive items s).activity = s.activity := rfl
@[simp] theorem arrive_settings (items : List RxItem) (s : State) :
    (arrive items s).settings = s.settings := rfl
@[simp] theorem arrive_requests (items : List RxItem) (s : State) :
    (arrive items s).requests = s.requests := rfl
@[simp] theorem arrive_delivered (items : List RxItem) (s : State) :
    (arrive items s).delivered = s.delivered := rfl
@[simp] theorem arrive_isOpen (items : List RxItem) (s : State) :
    (arrive items s).transport.isOpen = s.transport.isOpen := rfl
@[simp] theorem arrive_incoming (items : List RxItem) (s : State) :
    (arrive items s).transport.incoming = s.transport.incoming ++ items := rfl
@[simp] theorem arrive_writeAnswers (items : List RxItem) (s : State) :
    (arrive items s).transport.writeAnswers = s.transport.writeAnswers := rfl
@[simp] theorem arrive_calls (items : List RxItem) (s : State) :
    (arrive items s).transport.calls = s.transport.calls := rfl

@[simp] theorem close_synchronized (s : State) :
    (close s).synchronized = s.synchronized := rfl
@[simp] theorem close_activity (s : State) :
    (close s).activity = s.activity := rfl
@[simp] theorem close_settings (s : State) :
    (close s).settings = s.settings := rfl
@[simp] theorem close_requests (s : State) :
    (close s).requests = s.requests := rfl
@[simp] theorem close_delivered (s : State) :
    (close s).delivered = s.delivered := rfl
@[simp] theorem close_isOpen (s : State) :
    (close s).transport.isOpen = false := rfl
@[simp] theorem close_incoming (s : State) :
    (close s).transport.incoming = s.transport.incoming := rfl
@[simp] theorem close_writeAnswers (s : State) :
    (close s).transport.writeAnswers = s.transport.writeAnswers := rfl
@[simp] theorem close_calls (s : State) :
    (close s).transport.calls = s.transport.calls := rfl

@[simp] theorem after_synchronized (s : State) (cs : List Call) (incoming : List RxItem) (r : Result) :
    (s.after cs incoming r).synchronized = s.synchronized := rfl
@[simp] theorem after_activity (s : State) (cs : List Call) (incoming : List RxItem) (r : Result) :
    (s.after cs incoming r).activity = s.activity := rfl
@[simp] theorem after_settings (s : State) (cs : List Call) (incoming : List RxItem) (r : Result) :
    (s.after cs incoming r).settings = s.settings := rfl
@[simp] theorem after_requests (s : State) (cs : List Call) (incoming : List RxItem) (r : Result) :
    (s.after cs incoming r).requests = s.requests := rfl
@[simp] theorem after_delivered (s : State) (cs : List Call) (incoming : List RxItem) (r : Result) :
    (s.after cs incoming r).delivered = s.delivered ++ [r] := rfl
@[simp] theorem after_isOpen (s : State) (cs : List Call) (incoming : List RxItem) (r : Result) :
    (s.after cs incoming r).transport.isOpen = s.transport.isOpen := rfl
@[simp] theorem after_incoming (s : State) (cs : List Call) (incoming : List RxItem) (r : Result) :
    (s.after cs incoming r).transport.incoming = incoming := rfl
@[simp] theorem after_writeAnswers (s : State) (cs : List Call) (incoming : List RxItem) (r : Result) :
    (s.after cs incoming r).transport.writeAnswers = s.transport.writeAnswers.tail := rfl
@[simp] theorem after_calls (s : State) (cs : List Call) (incoming : List RxItem) (r : Result) :
    (s.after cs incoming r).transport.calls = s.transport.calls ++ cs := rfl

@[simp] theorem placeTableWord_requests (s : State) (nbits w : Nat) :
    (placeTableWord s nbits w).requests = requestOfTableWord nbits w :: s.requests := rfl

/-- Where the next request would be issued anyway, placing a table word changes the requests only. -/
theorem placeTableWord_of_ready (s : State) (nbits w : Nat) (h : Ready s) :
    placeTableWord s nbits w = { s with requests := requestOfTableWord nbits w :: s.requests } := by
  obtain ⟨sync, act, cfg, reqs, del, ⟨o, inc, wa, calls⟩⟩ := s
  obtain ⟨ho, ha⟩ := h
  cases ho
  cases ha
  rfl

end Sys2Proof.Machine
end

