-- ==== Sys2Proof/Laws/Ops.lean ====
section
/-! SUPPORT. What each shared operation can do, said once: the reads and writes of the transport, the sequencing of steps, the issue of an operation. -/

namespace Sys2Proof.Machine

/-! ### Streams of bytes -/

@[simp] theorem bytesIn_nil : bytesIn [] = [] := rfl
@[simp] theorem bytesIn_cons (b : Byte) (bs : List Byte) : bytesIn (b :: bs) = .byte b :: bytesIn bs := rfl
@[simp] theorem bytesIn_append (bs cs : List Byte) : bytesIn (bs ++ cs) = bytesIn bs ++ bytesIn cs := by
  simp [bytesIn]

@[simp] theorem streamBytes_nil : streamBytes [] = [] := rfl
@[simp] theorem streamBytes_byte (b : Byte) (items : List RxItem) :
    streamBytes (.byte b :: items) = b :: streamBytes items := rfl
@[simp] theorem streamBytes_timeout (items : List RxItem) : streamBytes (.timeout :: items) = streamBytes items := rfl
@[simp] theorem streamBytes_failure (items : List RxItem) : streamBytes (.failure :: items) = streamBytes items := rfl

@[simp] theorem txStream_nil : txStream [] = [] := rfl
@[simp] theorem txStream_cons (c : Call) (cs : List Call) : txStream (c :: cs) = c.sent ++ txStream cs := rfl
@[simp] theorem txStream_append (cs ds : List Call) : txStream (cs ++ ds) = txStream cs ++ txStream ds := by
  simp [txStream]
@[simp] theorem rxTaken_nil : rxTaken [] = [] := rfl
@[simp] theorem rxTaken_cons (c : Call) (cs : List Call) : rxTaken (c :: cs) = c.taken ++ rxTaken cs := rfl
@[simp] theorem rxTaken_append (cs ds : List Call) : rxTaken (cs ++ ds) = rxTaken cs ++ rxTaken ds := by
  simp [rxTaken]

@[simp] theorem sent_write (ph : Phase) (bs sent : List Byte) (f : Bool) : Call.sent ⟨ph, .write bs sent f⟩ = sent := rfl
@[simp] theorem sent_read (ph : Phase) (n : Nat) (r : List Byte) (f : Bool) : Call.sent ⟨ph, .read n r f⟩ = [] := rfl
@[simp] theorem taken_write (ph : Phase) (bs sent : List Byte) (f : Bool) : Call.taken ⟨ph, .write bs sent f⟩ = [] := rfl
@[simp] theorem taken_read (ph : Phase) (n : Nat) (r : List Byte) (f : Bool) : Call.taken ⟨ph, .read n r f⟩ = r := rfl
@[simp] theorem failed_write (ph : Phase) (bs sent : List Byte) (f : Bool) : Call.failed ⟨ph, .write bs sent f⟩ = f := rfl
@[simp] theorem failed_read (ph : Phase) (n : Nat) (r : List Byte) (f : Bool) : Call.failed ⟨ph, .read n r f⟩ = f := rfl
@[simp] theorem isWrite_write (ph : Phase) (bs sent : List Byte) (f : Bool) :
    Call.isWrite ⟨ph, .write bs sent f⟩ = true := rfl
@[simp] theorem isWrite_read (ph : Phase) (n : Nat) (r : List Byte) (f : Bool) :
    Call.isWrite ⟨ph, .read n r f⟩ = false := rfl

/-! ### Reading the receive stream -/

@[simp] theorem takeRx_zero (items : List RxItem) : takeRx 0 items = ⟨[], false, items⟩ := by
  cases items <;> rfl
@[simp] theorem takeRx_succ_nil (n : Nat) : takeRx (n + 1) [] = ⟨[], false, []⟩ := rfl
@[simp] theorem takeRx_succ_timeout (n : Nat) (rest : List RxItem) :
    takeRx (n + 1) (.timeout :: rest) = ⟨[], false, rest⟩ := rfl
@[simp] theorem takeRx_succ_failure (n : Nat) (rest : List RxItem) :
    takeRx (n + 1) (.failure :: rest) = ⟨[], true, rest⟩ := rfl
@[simp] theorem takeRx_succ_byte (n : Nat) (b : Byte) (rest : List RxItem) :
    takeRx (n + 1) (.byte b :: rest) = ⟨b :: (takeRx n rest).bytes, (takeRx n rest).failed, (takeRx n rest).rest⟩ := rfl

/-- A read past `bs` takes `bs` and then reads on. -/
theorem takeRx_bytesIn_append (bs : List Byte) (n : Nat) (items : List RxItem) :
    takeRx (bs.length + n) (bytesIn bs ++ items) =
      ⟨bs ++ (takeRx n items).bytes, (takeRx n items).failed, (takeRx n items).rest⟩ := by
  induction bs with
  | nil => simp
  | cons b bs ih =>
    have e : (b :: bs).length + n = (bs.length + n) + 1 := by simp; omega
    rw [e, bytesIn_cons, List.cons_append, takeRx_succ_byte, ih, List.cons_append]

/-- A read that the stream can fill. -/
theorem takeRx_full {bs : List Byte} {n : Nat} (rest : List RxItem) (h : bs.length = n) :
    takeRx n (bytesIn bs ++ rest) = ⟨bs, false, rest⟩ := by
  subst h
  simpa using takeRx_bytesIn_append bs 0 rest

/-- A read that the stream stops short. -/
theorem takeRx_short {bs : List Byte} {n : Nat} {stop rest : List RxItem} (h : bs.length < n) (hs : Stops stop rest) :
    takeRx n (bytesIn bs ++ stop) = ⟨bs, false, rest⟩ := by
  obtain ⟨m, rfl⟩ : ∃ m, n = bs.length + (m + 1) := ⟨n - bs.length - 1, by omega⟩
  rw [takeRx_bytesIn_append]
  cases hs <;> simp

/-- A read that a failure of the transport ends. -/
theorem takeRx_failed {bs : List Byte} {n : Nat} (rest : List RxItem) (h : bs.length < n) :
    takeRx n (bytesIn bs ++ .failure :: rest) = ⟨bs, true, rest⟩ := by
  obtain ⟨m, rfl⟩ : ∃ m, n = bs.length + (m + 1) := ⟨n - bs.length - 1, by omega⟩
  rw [takeRx_bytesIn_append]
  simp

/-- What a read can do: fill up, be stopped short, or fail. -/
theorem takeRx_cases (n : Nat) (items : List RxItem) :
    ((takeRx n items).bytes.length = n ∧ (takeRx n items).failed = false ∧
        items = bytesIn (takeRx n items).bytes ++ (takeRx n items).rest) ∨
    ((takeRx n items).bytes.length < n ∧ (takeRx n items).failed = false ∧
        ∃ stop, Stops stop (takeRx n items).rest ∧ items = bytesIn (takeRx n items).bytes ++ stop) ∨
    ((takeRx n items).bytes.length < n ∧ (takeRx n items).failed = true ∧
        items = bytesIn (takeRx n items).bytes ++ .failure :: (takeRx n items).rest) := by
  induction n generalizing items with
  | zero => simp
  | succ n ih =>
    match items with
    | [] => exact .inr (.inl ⟨by simp, rfl, [], .silence, by simp⟩)
    | .timeout :: rest => exact .inr (.inl ⟨by simp, rfl, _, .timeout rest, by simp⟩)
    | .failure :: rest => exact .inr (.inr ⟨by simp, rfl, by simp⟩)
    | .byte b :: rest =>
      rcases ih rest with ⟨h1, h2, h3⟩ | ⟨h1, h2, stop, hs, h3⟩ | ⟨h1, h2, h3⟩
      · exact .inl ⟨by simpa using h1, h2, by simpa using h3⟩
      · exact .inr (.inl ⟨by simpa using h1, h2, stop, hs, by simpa using h3⟩)
      · exact .inr (.inr ⟨by simpa using h1, h2, by simpa using h3⟩)

theorem takeRx_length_le (n : Nat) (items : List RxItem) : (takeRx n items).bytes.length ≤ n := by
  rcases takeRx_cases n items with h | h | h <;> omega

/-- Reading neither loses, doubles nor reorders a byte. -/
theorem streamBytes_takeRx (n : Nat) (items : List RxItem) :
    streamBytes items = (takeRx n items).bytes ++ streamBytes (takeRx n items).rest := by
  induction n generalizing items with
  | zero => simp
  | succ n ih =>
    match items with
    | [] => rfl
    | .timeout :: rest => rfl
    | .failure :: rest => rfl
    | .byte b :: rest => simp [ih rest]

/-! ### The primitives -/

theorem txWrite_completes {ph : Phase} {bs : List Byte} {s : State} (h : WriteCompletes s) :
    txWrite ph bs s = (.ok (), afterWrite ph bs bs false s) := by
  unfold txWrite
  rw [h]

theorem txWrite_fails {ph : Phase} {bs : List Byte} {s : State} {k : Nat} (h : nextWriteAnswer s = .fails k) :
    txWrite ph bs s = (.error .transportError, afterWrite ph bs (bs.take k) true s) := by
  unfold txWrite
  rw [h]

/-- What a write can do: complete, or fail with a prefix sent. -/
theorem txWrite_cases (ph : Phase) (bs : List Byte) (s : State) :
    (WriteCompletes s ∧ txWrite ph bs s = (.ok (), afterWrite ph bs bs false s)) ∨
    ∃ k, nextWriteAnswer s = .fails k ∧
      txWrite ph bs s = (.error .transportError, afterWrite ph bs (bs.take k) true s) := by
  cases h : nextWriteAnswer s with
  | completes => exact .inl ⟨h, txWrite_completes h⟩
  | fails k => exact .inr ⟨k, rfl, txWrite_fails h⟩

@[simp] theorem rxRead_zero (ph : Phase) (s : State) : rxRead ph 0 s = (.ok [], s) := rfl

theorem rxRead_pos {ph : Phase} {n : Nat} {s : State} (h : 0 < n) :
    rxRead ph n s =
      (if (takeRx n s.transport.incoming).failed then .error .transportError
        else .ok (takeRx n s.transport.incoming).bytes,
       afterRead ph n (takeRx n s.transport.incoming) s) := by
  simp [rxRead, Nat.ne_of_gt h]

/-! ### Sequencing -/

@[simp] theorem andThen_ok {α β : Type} (a : α) (s : State) (f : α → State → Reply β) :
    andThen (.ok a, s) f = f a s := rfl
@[simp] theorem andThen_error {α β : Type} (k : ErrKind) (s : State) (f : α → State → Reply β) :
    andThen (.error k, s) f = (.error k, s) := rfl

@[simp] theorem resultOf_ok (v : Value) : resultOf (.ok v) = .ok v := rfl
@[simp] theorem resultOf_error (k : ErrKind) : resultOf (.error k) = .err k := rfl

/-! ### Issuing -/

theorem issue_ready {op : State → Reply Value} {s : State} (h : Ready s) : issue op s = .next (deliver (op s)) := by
  simp [issue, h.1, h.2]

/-- What issuing an operation can do: stop because the transport is closed, be refused because another operation is in progress, or
run and deliver. -/
theorem issue_cases (op : State → Reply Value) (s : State) :
    (s.transport.isOpen = false ∧ issue op s = .fault .transportClosed) ∨
    (s.transport.isOpen = true ∧ s.activity ≠ .idle ∧ issue op s = .refused .busy) ∨
    (Ready s ∧ issue op s = .next (deliver (op s))) := by
  by_cases ho : s.transport.isOpen = true
  · by_cases ha : s.activity = .idle
    · exact .inr (.inr ⟨⟨ho, ha⟩, issue_ready ⟨ho, ha⟩⟩)
    · exact .inr (.inl ⟨ho, ha, by simp [issue, ho, ha]⟩)
  · simp only [Bool.not_eq_true] at ho
    exact .inl ⟨ho, by simp [issue, ho]⟩

theorem issue_next {op : State → Reply Value} {s t : State} (h : issue op s = .next t) :
    Ready s ∧ t = deliver (op s) := by
  rcases issue_cases op s with ⟨_, e⟩ | ⟨_, _, e⟩ | ⟨hr, e⟩
  · simp [e] at h
  · simp [e] at h
  · rw [e] at h
    exact ⟨hr, (Host.Outcome.next.inj h).symm⟩

/-- The operation behind each constructor. -/
def operationOf : Instr → State → Reply Value
  | .enter => enterOp
  | .sendCommand o => sendCommandOp o
  | .getVersion => getVersionOp
  | .getChipId => getChipIdOp
  | .readMemory a n => readMemoryOp a n

theorem exec_eq_issue (i : Instr) (s : State) : exec i s = issue (operationOf i) s := by
  cases i <;> rfl

theorem exec_ready {i : Instr} {s : State} (h : Ready s) : exec i s = .next (deliver (operationOf i s)) := by
  rw [exec_eq_issue, issue_ready h]

theorem exec_next {i : Instr} {s t : State} (h : exec i s = .next t) :
    Ready s ∧ t = deliver (operationOf i s) :=
  issue_next (exec_eq_issue i s ▸ h)

/-! ### What an operation's steps move -/

/-- `s'` comes from `s` by the transport calls `cs`: the calls are added, the bytes they took are gone from the receive stream, and
nothing of the sequencer, the configuration or the host port differs. -/
structure Moves (s s' : State) (cs : List Call) : Prop where
  activity : s'.activity = s.activity
  settings : s'.settings = s.settings
  requests : s'.requests = s.requests
  delivered : s'.delivered = s.delivered
  isOpen : s'.transport.isOpen = s.transport.isOpen
  calls : s'.transport.calls = s.transport.calls ++ cs
  bytes : streamBytes s.transport.incoming = rxTaken cs ++ streamBytes s'.transport.incoming

theorem Moves.refl (s : State) : Moves s s [] := ⟨rfl, rfl, rfl, rfl, rfl, by simp, rfl⟩

theorem Moves.trans {s s' s'' : State} {cs ds : List Call} (h : Moves s s' cs) (k : Moves s' s'' ds) :
    Moves s s'' (cs ++ ds) :=
  ⟨k.activity.trans h.activity, k.settings.trans h.settings, k.requests.trans h.requests,
    k.delivered.trans h.delivered, k.isOpen.trans h.isOpen, by rw [k.calls, h.calls, List.append_assoc],
    by rw [h.bytes, k.bytes, rxTaken_append, List.append_assoc]⟩

theorem afterWrite_moves (ph : Phase) (bs sent : List Byte) (f : Bool) (s : State) :
    Moves s (afterWrite ph bs sent f s) [⟨ph, .write bs sent f⟩] :=
  ⟨rfl, rfl, rfl, rfl, rfl, rfl, rfl⟩

theorem afterRead_moves (ph : Phase) (n : Nat) (s : State) :
    Moves s (afterRead ph n (takeRx n s.transport.incoming) s)
      [⟨ph, .read n (takeRx n s.transport.incoming).bytes (takeRx n s.transport.incoming).failed⟩] :=
  ⟨rfl, rfl, rfl, rfl, rfl, rfl, by simpa using streamBytes_takeRx n s.transport.incoming⟩

theorem setSynchronized_moves (s : State) : Moves s (setSynchronized s) [] :=
  ⟨rfl, rfl, rfl, rfl, rfl, by simp, rfl⟩

end Sys2Proof.Machine
end

