-- ==== Sys2Proof/Laws/Operations.lean ====
section
/-! SUPPORT. What each step of an operation, and so each operation, can do: inversion lemmas that later proofs cite instead of unfolding an operation. In each, `takeRx … = ⟨…⟩` says which bytes the read took and what it left. -/

namespace Sys2Proof.Machine

/-- A read of one byte: the byte, nothing, or a failure. -/
theorem takeRx_one_cases (items : List RxItem) :
    (∃ b rest, takeRx 1 items = ⟨[b], false, rest⟩) ∨ (∃ rest, takeRx 1 items = ⟨[], false, rest⟩) ∨
    (∃ rest, takeRx 1 items = ⟨[], true, rest⟩) := by
  match items with
  | [] => exact .inr (.inl ⟨_, rfl⟩)
  | .byte b :: rest => exact .inl ⟨b, rest, by simp⟩
  | .timeout :: rest => exact .inr (.inl ⟨_, rfl⟩)
  | .failure :: rest => exact .inr (.inr ⟨_, rfl⟩)

/-- The acknowledge read (R102): a byte, nothing, or a failure. -/
theorem rxRead_one_cases (ph : Phase) (s : State) :
    (∃ b rest, takeRx 1 s.transport.incoming = ⟨[b], false, rest⟩ ∧
      rxRead ph 1 s = (.ok [b], afterRead ph 1 ⟨[b], false, rest⟩ s)) ∨
    (∃ rest, takeRx 1 s.transport.incoming = ⟨[], false, rest⟩ ∧
      rxRead ph 1 s = (.ok [], afterRead ph 1 ⟨[], false, rest⟩ s)) ∨
    (∃ rest, takeRx 1 s.transport.incoming = ⟨[], true, rest⟩ ∧
      rxRead ph 1 s = (.error .transportError, afterRead ph 1 ⟨[], true, rest⟩ s)) := by
  rcases takeRx_one_cases s.transport.incoming with ⟨b, rest, h⟩ | ⟨rest, h⟩ | ⟨rest, h⟩
  · exact .inl ⟨b, rest, h, by simp [rxRead_pos, h]⟩
  · exact .inr (.inl ⟨rest, h, by simp [rxRead_pos, h]⟩)
  · exact .inr (.inr ⟨rest, h, by simp [rxRead_pos, h]⟩)

/-- A read of one byte that must arrive. -/
theorem rxByte_cases (ph : Phase) (s : State) :
    (∃ b rest, takeRx 1 s.transport.incoming = ⟨[b], false, rest⟩ ∧
      rxByte ph s = (.ok b, afterRead ph 1 ⟨[b], false, rest⟩ s)) ∨
    (∃ rest, takeRx 1 s.transport.incoming = ⟨[], false, rest⟩ ∧
      rxByte ph s = (.error .shortRead, afterRead ph 1 ⟨[], false, rest⟩ s)) ∨
    (∃ rest, takeRx 1 s.transport.incoming = ⟨[], true, rest⟩ ∧
      rxByte ph s = (.error .transportError, afterRead ph 1 ⟨[], true, rest⟩ s)) := by
  rcases rxRead_one_cases ph s with ⟨b, rest, h, e⟩ | ⟨rest, h, e⟩ | ⟨rest, h, e⟩
  · exact .inl ⟨b, rest, h, by simp [rxByte, e]⟩
  · exact .inr (.inl ⟨rest, h, by simp [rxByte, e]⟩)
  · exact .inr (.inr ⟨rest, h, by simp [rxByte, e]⟩)

/-- A read of `n > 0` bytes that must all arrive. -/
theorem rxReadAll_cases (ph : Phase) {n : Nat} (hn : 0 < n) (s : State) :
    (∃ r rest, r.length = n ∧ takeRx n s.transport.incoming = ⟨r, false, rest⟩ ∧
      rxReadAll ph n s = (.ok r, afterRead ph n ⟨r, false, rest⟩ s)) ∨
    (∃ r rest, r.length < n ∧ takeRx n s.transport.incoming = ⟨r, false, rest⟩ ∧
      rxReadAll ph n s = (.error .shortRead, afterRead ph n ⟨r, false, rest⟩ s)) ∨
    (∃ r rest, r.length < n ∧ takeRx n s.transport.incoming = ⟨r, true, rest⟩ ∧
      rxReadAll ph n s = (.error .transportError, afterRead ph n ⟨r, true, rest⟩ s)) := by
  have hc := takeRx_cases n s.transport.incoming
  have hr := rxRead_pos (ph := ph) (s := s) hn
  generalize takeRx n s.transport.incoming = t at hc hr
  obtain ⟨r, f, rest⟩ := t
  rcases hc with ⟨h1, h2, -⟩ | ⟨h1, h2, -⟩ | ⟨h1, h2, -⟩ <;> simp only at h1 h2 <;> subst h2
  · exact .inl ⟨r, rest, h1, rfl, by simp [rxReadAll, hr, h1]⟩
  · exact .inr (.inl ⟨r, rest, h1, rfl, by simp [rxReadAll, hr, h1]⟩)
  · exact .inr (.inr ⟨r, rest, h1, rfl, by simp [rxReadAll, hr]⟩)

@[simp] theorem rxReadAll_zero (ph : Phase) (s : State) : rxReadAll ph 0 s = (.ok [], s) := by
  simp [rxReadAll]

/-- The read of two bytes that must both arrive. -/
theorem rxPair_cases (ph : Phase) (s : State) :
    (∃ b0 b1 rest, takeRx 2 s.transport.incoming = ⟨[b0, b1], false, rest⟩ ∧
      rxPair ph s = (.ok (b0, b1), afterRead ph 2 ⟨[b0, b1], false, rest⟩ s)) ∨
    (∃ r rest, r.length < 2 ∧ takeRx 2 s.transport.incoming = ⟨r, false, rest⟩ ∧
      rxPair ph s = (.error .shortRead, afterRead ph 2 ⟨r, false, rest⟩ s)) ∨
    (∃ r rest, r.length < 2 ∧ takeRx 2 s.transport.incoming = ⟨r, true, rest⟩ ∧
      rxPair ph s = (.error .transportError, afterRead ph 2 ⟨r, true, rest⟩ s)) := by
  have hc := takeRx_cases 2 s.transport.incoming
  have hr := rxRead_pos (ph := ph) (s := s) (show 0 < 2 by decide)
  generalize takeRx 2 s.transport.incoming = t at hc hr
  obtain ⟨r, f, rest⟩ := t
  rcases hc with ⟨h1, h2, -⟩ | ⟨h1, h2, -⟩ | ⟨h1, h2, -⟩ <;> simp only at h1 h2 <;> subst h2
  · match r, h1 with
    | [b0, b1], _ => exact .inl ⟨b0, b1, rest, rfl, by simp [rxPair, hr]⟩
  · match r, h1 with
    | [], _ => exact .inr (.inl ⟨_, rest, by simp, rfl, by simp [rxPair, hr]⟩)
    | [b], _ => exact .inr (.inl ⟨_, rest, by simp, rfl, by simp [rxPair, hr]⟩)
  · exact .inr (.inr ⟨r, rest, h1, rfl, by simp [rxPair, hr]⟩)

/-! ### Reads of a known stream -/

theorem rxByte_byte {ph : Phase} {s : State} {b : Byte} {rest : List RxItem}
    (h : s.transport.incoming = .byte b :: rest) :
    rxByte ph s = (.ok b, afterRead ph 1 ⟨[b], false, rest⟩ s) := by
  simp [rxByte, rxRead_pos, h]

theorem rxByte_stops {ph : Phase} {s : State} {rest : List RxItem} (h : Stops s.transport.incoming rest) :
    rxByte ph s = (.error .shortRead, afterRead ph 1 ⟨[], false, rest⟩ s) := by
  have e := takeRx_short (bs := []) (n := 1) (by simp) h
  rw [bytesIn_nil, List.nil_append] at e
  simp [rxByte, rxRead_pos, e]

theorem rxReadAll_full {ph : Phase} {n : Nat} {s : State} {bs : List Byte} {rest : List RxItem} (hn : 0 < n)
    (hl : bs.length = n) (h : s.transport.incoming = bytesIn bs ++ rest) :
    rxReadAll ph n s = (.ok bs, afterRead ph n ⟨bs, false, rest⟩ s) := by
  simp [rxReadAll, rxRead_pos hn, h, takeRx_full rest hl, hl]

theorem rxReadAll_short {ph : Phase} {n : Nat} {s : State} {bs : List Byte} {stop rest : List RxItem}
    (hl : bs.length < n) (hs : Stops stop rest) (h : s.transport.incoming = bytesIn bs ++ stop) :
    rxReadAll ph n s = (.error .shortRead, afterRead ph n ⟨bs, false, rest⟩ s) := by
  simp [rxReadAll, rxRead_pos (show 0 < n by omega), h, takeRx_short hl hs, hl]

theorem rxPair_bytes {ph : Phase} {s : State} {b0 b1 : Byte} {rest : List RxItem}
    (h : s.transport.incoming = .byte b0 :: .byte b1 :: rest) :
    rxPair ph s = (.ok (b0, b1), afterRead ph 2 ⟨[b0, b1], false, rest⟩ s) := by
  simp [rxPair, rxRead_pos, h]

theorem rxPair_short {ph : Phase} {s : State} {bs : List Byte} {stop rest : List RxItem} (hl : bs.length < 2)
    (hs : Stops stop rest) (h : s.transport.incoming = bytesIn bs ++ stop) :
    rxPair ph s = (.error .shortRead, afterRead ph 2 ⟨bs, false, rest⟩ s) := by
  have e := takeRx_short hl hs
  rw [← h] at e
  match bs, hl with
  | [], _ => simp [rxPair, rxRead_pos, e]
  | [b], _ => simp [rxPair, rxRead_pos, e]

/-! ### The acknowledge test -/

@[simp] theorem isAck_nil : isAck [] = false := rfl
@[simp] theorem isAck_single (b : Byte) : isAck [b] = decide (b = 0x79#8) := by
  by_cases h : b = 0x79#8
  · subst h
    rfl
  · simp [isAck, Config.ACK, h]
theorem isAck_eq_true {r : List Byte} (h : isAck r = true) : r = [0x79] := by
  simpa [isAck, Config.ACK] using h

@[simp] theorem nackDetail_nil : Machine.nackDetail [] = .timeout := rfl
@[simp] theorem nackDetail_cons (b : Byte) (r : List Byte) : Machine.nackDetail (b :: r) = .byte b := rfl

/-! ### SEND_COMMAND, the entry point of every framed command -/

theorem sendCommandOp_refused {o : Byte} {s : State} (h : s.synchronized = false) :
    sendCommandOp o s = (.error .refused, s) := by
  simp [sendCommandOp, h]

/-- What SEND_COMMAND's steps can do. -/
theorem sendCommandOp_cases (o : Byte) (s : State) :
    (s.synchronized = false ∧ sendCommandOp o s = (.error .refused, s)) ∨
    (s.synchronized = true ∧ ∃ k, nextWriteAnswer s = .fails k ∧ sendCommandOp o s =
      (.error .transportError, afterWrite .tx (commandFrame o) ((commandFrame o).take k) true s)) ∨
    (s.synchronized = true ∧ WriteCompletes s ∧ ∃ t, takeRx 1 s.transport.incoming = t ∧
      ((t.bytes = [0x79] ∧ t.failed = false ∧ sendCommandOp o s =
          (.ok .unit, afterRead .rxAck 1 t (afterWrite .tx (commandFrame o) (commandFrame o) false s))) ∨
       (t.bytes ≠ [0x79] ∧ t.bytes.length ≤ 1 ∧ t.failed = false ∧ sendCommandOp o s =
          (.error (.nacked (nackDetail t.bytes)),
            afterRead .rxAck 1 t (afterWrite .tx (commandFrame o) (commandFrame o) false s))) ∨
       (t.bytes = [] ∧ t.failed = true ∧ sendCommandOp o s =
          (.error .transportError,
            afterRead .rxAck 1 t (afterWrite .tx (commandFrame o) (commandFrame o) false s))))) := by
  cases hs : s.synchronized with
  | false => exact .inl ⟨rfl, sendCommandOp_refused hs⟩
  | true =>
    refine .inr ?_
    rcases txWrite_cases .tx (commandFrame o) s with ⟨hw, e⟩ | ⟨k, hk, e⟩
    · refine .inr ⟨rfl, hw, _, rfl, ?_⟩
      rcases rxRead_one_cases .rxAck (afterWrite .tx (commandFrame o) (commandFrame o) false s) with
        ⟨b, rest, h, e'⟩ | ⟨rest, h, e'⟩ | ⟨rest, h, e'⟩ <;> rw [afterWrite_incoming] at h <;> rw [h]
      · by_cases hb : b = 0x79#8
        · subst hb
          exact .inl ⟨rfl, rfl, by simp [sendCommandOp, hs, e, e']⟩
        · exact .inr (.inl ⟨by simpa using hb, by simp, rfl,
            by simp [sendCommandOp, hs, e, e', hb]⟩)
      · exact .inr (.inl ⟨by simp, by simp, rfl, by simp [sendCommandOp, hs, e, e']⟩)
      · exact .inr (.inr ⟨rfl, rfl, by simp [sendCommandOp, hs, e, e']⟩)
    · exact .inl ⟨rfl, k, hk, by simp [sendCommandOp, hs, e]⟩

theorem sendCommandOp_ack {o : Byte} {s : State} {rest : List RxItem} (hs : s.synchronized = true)
    (hw : WriteCompletes s) (h : s.transport.incoming = .byte 0x79 :: rest) :
    sendCommandOp o s = (.ok .unit,
      afterRead .rxAck 1 ⟨[0x79], false, rest⟩ (afterWrite .tx (commandFrame o) (commandFrame o) false s)) := by
  simp [sendCommandOp, hs, txWrite_completes hw, rxRead_pos, h]

end Sys2Proof.Machine
end

