-- ==== Sys2Proof/Laws/PerInstr.lean ====
section
/-! SUPPORT. Lemmas made once for each operation of Instr. -/

namespace Sys2Proof.Laws.FrameShape

/-- The frame of an operation is one of the three formats (30_encoding.md R61, R62, R64): one byte, two bytes whose exclusive or is
`0xFF`, or five bytes of which the first is `0x11`. -/
def Statement (i : Instr) : Prop :=
  frame i = [0x7F] ∨ (∃ o c, frame i = [o, c] ∧ o ^^^ c = 0xFF) ∨
    ∃ d0 d1 d2 d3, frame i = [0x11, d0, d1, d2, d3]

theorem enter : Statement .enter := .inl rfl

theorem sendCommand (opcode : Byte) : Statement (.sendCommand opcode) :=
  .inr (.inl ⟨opcode, checksum opcode, rfl, by simp [checksum, Config.CHK_MASK]⟩)

theorem getVersion : Statement .getVersion := .inr (.inl ⟨0x01, 0xFE, rfl, rfl⟩)

theorem getChipId : Statement .getChipId := .inr (.inl ⟨0x02, 0xFD, rfl, rfl⟩)

theorem readMemory (address : Word) (length : Half) : Statement (.readMemory address length) :=
  .inr (.inr ⟨_, _, _, _, rfl⟩)

end Sys2Proof.Laws.FrameShape
end

