-- ==== Sys2Proof/Laws/Sequencer.lean ====
section
/-! SUPPORT. The sequencer: where it stands makes no difference to a transport call, and what a micro-step does at each position. -/

namespace Sys2Proof.Machine

/-! ### A transport call does not look at the sequencer's position -/

@[simp] theorem goto_goto (a b : Activity) (s : State) : goto a (goto b s) = goto a s := rfl

@[simp] theorem deliver_goto (x : Except ErrKind Value) (a : Activity) (s : State) :
    deliver (x, goto a s) = deliver (x, s) := rfl

theorem goto_self {a : Activity} {s : State} (h : s.activity = a) : goto a s = s := by
  cases h
  rfl

@[simp] theorem setSynchronized_goto (a : Activity) (s : State) :
    setSynchronized (goto a s) = goto a (setSynchronized s) := rfl

theorem txWrite_goto (ph : Phase) (bs : List Byte) (a : Activity) (s : State) :
    txWrite ph bs (goto a s) = ((txWrite ph bs s).1, goto a (txWrite ph bs s).2) := by
  simp only [txWrite, show nextWriteAnswer (goto a s) = nextWriteAnswer s from rfl]
  cases nextWriteAnswer s <;> rfl

theorem rxRead_goto (ph : Phase) (n : Nat) (a : Activity) (s : State) :
    rxRead ph n (goto a s) = ((rxRead ph n s).1, goto a (rxRead ph n s).2) := by
  by_cases h : n = 0
  · simp [h]
  · simp only [rxRead, h, if_false]
    rfl

/-- A step that does not look at the position, followed by one that does not. -/
theorem andThen_goto {α β : Type} {p : State → Reply α} {f : α → State → Reply β} (a : Activity)
    (hp : ∀ s, p (goto a s) = ((p s).1, goto a (p s).2)) (hf : ∀ x s, f x (goto a s) = ((f x s).1, goto a (f x s).2))
    (s : State) : andThen (p (goto a s)) f = ((andThen (p s) f).1, goto a (andThen (p s) f).2) := by
  rw [hp]
  rcases p s with ⟨k | x, s'⟩
  · rfl
  · exact hf x s'

theorem rxByte_goto (ph : Phase) (a : Activity) (s : State) :
    rxByte ph (goto a s) = ((rxByte ph s).1, goto a (rxByte ph s).2) :=
  andThen_goto a (rxRead_goto ph 1 a) (fun r _ => by cases r <;> rfl) s

theorem rxPair_goto (ph : Phase) (a : Activity) (s : State) :
    rxPair ph (goto a s) = ((rxPair ph s).1, goto a (rxPair ph s).2) :=
  andThen_goto a (rxRead_goto ph 2 a) (fun r _ => by match r with | [] => rfl | [_] => rfl | _ :: _ :: _ => rfl) s

theorem rxReadAll_goto (ph : Phase) (n : Nat) (a : Activity) (s : State) :
    rxReadAll ph n (goto a s) = ((rxReadAll ph n s).1, goto a (rxReadAll ph n s).2) :=
  andThen_goto a (rxRead_goto ph n a) (fun r s => by by_cases h : r.length < n <;> simp [h]) s

/-! ### Going on or ending -/

@[simp] theorem proceed_ok {α : Type} (a : α) (s : State) (f : α → State → State) : proceed (.ok a, s) f = f a s := rfl
@[simp] theorem proceed_error {α : Type} (k : ErrKind) (s : State) (f : α → State → State) :
    proceed (.error k, s) f = deliver (.error k, s) := rfl

/-! ### One micro-step at each position -/

theorem microStep_idle {s : State} (h : s.activity = .idle) : microStep s = s := by
  simp [microStep, h]

theorem microStep_tx (op : Instr) (s : State) :
    microStep (goto (.tx op) s) = proceed (txWrite .tx (frame op) (goto (.tx op) s)) fun _ s => afterFrame op s := rfl

theorem microStep_syncAck (s : State) : microStep (goto .syncAck s) =
    proceed (rxRead .rxAck 1 (goto .syncAck s)) fun r s =>
      if isAck r then deliver (.ok .unit, setSynchronized s) else deliver (.error .noResponse, s) := rfl

theorem microStep_cmdAck (f : Follow) (s : State) : microStep (goto (.cmdAck f) s) =
    proceed (rxRead .rxAck 1 (goto (.cmdAck f) s)) fun r s =>
      if isAck r then afterAck f s else deliver (.error (.nacked (nackDetail r)), s) := rfl

theorem microStep_lenV (s : State) : microStep (goto .lenV s) =
    proceed (rxByte .rxLen (goto .lenV s)) fun len s => goto (.valV len) s := rfl

theorem microStep_lenI (s : State) : microStep (goto .lenI s) =
    proceed (rxByte .rxLen (goto .lenI s)) fun _ s => goto .valI s := rfl

theorem microStep_valV (len : Byte) (s : State) : microStep (goto (.valV len) s) =
    proceed (rxByte .rxVal (goto (.valV len) s)) fun ver s =>
      if len = 0 then goto (.tail (.u8 ver)) s else goto (.bodyV len ver) s := rfl

theorem microStep_valI (s : State) : microStep (goto .valI s) =
    proceed (rxPair .rxVal (goto .valI s)) fun b s => goto (.tail (.u16 (assembleChipId b.1 b.2))) s := rfl

theorem microStep_bodyV (len ver : Byte) (s : State) : microStep (goto (.bodyV len ver) s) =
    proceed (rxReadAll .rxBody (bodySize len) (goto (.bodyV len ver) s)) fun _ s => goto (.tail (.u8 ver)) s := rfl

theorem microStep_tail (value : Value) (s : State) : microStep (goto (.tail value) s) =
    proceed (rxByte .rxTail (goto (.tail value) s)) fun _ s => deliver (.ok value, s) := rfl

theorem microStep_raw (length : Half) (s : State) : microStep (goto (.raw length) s) =
    proceed (rxReadAll .rxRaw (rawSize length) (goto (.raw length) s)) fun d s => deliver (.ok (.bytes d), s) := rfl

/-! ### Many micro-steps -/

@[simp] theorem microSteps_zero (s : State) : microSteps 0 s = s := rfl
theorem microSteps_succ (n : Nat) (s : State) : microSteps (n + 1) s = microSteps n (microStep s) := rfl

theorem microSteps_idle {s : State} (h : s.activity = .idle) (n : Nat) : microSteps n s = s := by
  induction n with
  | zero => rfl
  | succ n ih => rw [microSteps_succ, microStep_idle h, ih]

@[simp] theorem microSteps_deliver (p : Reply Value) (n : Nat) : microSteps n (deliver p) = deliver p :=
  microSteps_idle rfl n

theorem microSteps_add (m n : Nat) (s : State) : microSteps (m + n) s = microSteps n (microSteps m s) := by
  induction m generalizing s with
  | zero => rw [Nat.zero_add, microSteps_zero]
  | succ m ih => rw [Nat.succ_add, microSteps_succ, microSteps_succ, ih]

end Sys2Proof.Machine
end

