-- ==== Sys2Proof/Laws/Trace.lean ====
section
/-! SUPPORT. Everything the transport calls and the result of an operation can be, said once: Trace lists the shapes, operation_trace says that every operation has one of them. Claims about calls and results follow by cases on Trace. -/

namespace Sys2Proof.Machine

/-- A read call that ends the operation: short, or failed. -/
inductive StopCall (ph : Phase) (n : Nat) : Call → ErrKind → Prop where
  | short (r : List Byte) (h : r.length < n) : StopCall ph n ⟨ph, .read n r false⟩ .shortRead
  | failed (r : List Byte) (h : r.length < n) : StopCall ph n ⟨ph, .read n r true⟩ .transportError

/-- The two calls of an acknowledged command. -/
def acked (i : Instr) : List Call := [wrote (frame i), readAll .rxAck [0x79]]

/-- The body read of GET_VERSION, skipped when its size is 0. -/
def bodyCalls (len : Byte) (body : List Byte) : List Call := if len = 0 then [] else [readAll .rxBody body]

/-- The data read of READ_MEMORY, skipped when its size is 0. -/
def rawCalls (n : Half) (d : List Byte) : List Call := if n = 0 then [] else [readAll .rxRaw d]

@[simp] theorem bodyCalls_zero (body : List Byte) : bodyCalls 0#8 body = [] := rfl
theorem bodyCalls_of_ne {len : Byte} (h : len ≠ 0#8) (body : List Byte) : bodyCalls len body = [readAll .rxBody body] :=
  if_neg h
@[simp] theorem rawCalls_zero (d : List Byte) : rawCalls 0#16 d = [] := rfl
theorem rawCalls_of_ne {n : Half} (h : n ≠ 0#16) (d : List Byte) : rawCalls n d = [readAll .rxRaw d] := if_neg h

/-- The calls an operation can make and the result it ends with, given the value of `synchronized` when it was issued. -/
inductive Trace : Instr → Bool → List Call → Except ErrKind Value → Prop where
  | refused (i : Instr) (h : requiresSynchronized i = true) : Trace i false [] (.error .refused)
  | writeFails (i : Instr) (y : Bool) (k : Nat) (h : requiresSynchronized i = true → y = true) :
      Trace i y [⟨.tx, .write (frame i) ((frame i).take k) true⟩] (.error .transportError)
  | enterAck (y : Bool) : Trace .enter y (acked .enter) (.ok .unit)
  | enterNoResponse (y : Bool) (r : List Byte) (h : r ≠ [0x79]) (hl : r.length ≤ 1) :
      Trace .enter y [wrote (frame .enter), ⟨.rxAck, .read 1 r false⟩] (.error .noResponse)
  | enterFails (y : Bool) :
      Trace .enter y [wrote (frame .enter), ⟨.rxAck, .read 1 [] true⟩] (.error .transportError)
  | nacked (i : Instr) (hi : requiresSynchronized i = true) (r : List Byte) (h : r ≠ [0x79]) (hl : r.length ≤ 1) :
      Trace i true [wrote (frame i), ⟨.rxAck, .read 1 r false⟩] (.error (.nacked (nackDetail r)))
  | ackFails (i : Instr) (hi : requiresSynchronized i = true) :
      Trace i true [wrote (frame i), ⟨.rxAck, .read 1 [] true⟩] (.error .transportError)
  | sendCommandOk (o : Byte) : Trace (.sendCommand o) true (acked (.sendCommand o)) (.ok .unit)
  | versionLenStops (c : Call) (k : ErrKind) (h : StopCall .rxLen 1 c k) :
      Trace .getVersion true (acked .getVersion ++ [c]) (.error k)
  | versionValStops (len : Byte) (c : Call) (k : ErrKind) (h : StopCall .rxVal 1 c k) :
      Trace .getVersion true (acked .getVersion ++ [readAll .rxLen [len], c]) (.error k)
  | versionBodyStops (len ver : Byte) (c : Call) (k : ErrKind) (hz : len ≠ 0) (h : StopCall .rxBody len.toNat c k) :
      Trace .getVersion true (acked .getVersion ++ [readAll .rxLen [len], readAll .rxVal [ver], c]) (.error k)
  | versionTailStops (len ver : Byte) (body : List Byte) (c : Call) (k : ErrKind) (hb : body.length = len.toNat)
      (h : StopCall .rxTail 1 c k) :
      Trace .getVersion true
        (acked .getVersion ++ [readAll .rxLen [len], readAll .rxVal [ver]] ++ bodyCalls len body ++ [c]) (.error k)
  | versionOk (len ver : Byte) (body : List Byte) (trail : Byte) (hb : body.length = len.toNat) :
      Trace .getVersion true
        (acked .getVersion ++ [readAll .rxLen [len], readAll .rxVal [ver]] ++ bodyCalls len body ++
          [readAll .rxTail [trail]]) (.ok (.u8 ver))
  | chipIdLenStops (c : Call) (k : ErrKind) (h : StopCall .rxLen 1 c k) :
      Trace .getChipId true (acked .getChipId ++ [c]) (.error k)
  | chipIdValStops (len : Byte) (c : Call) (k : ErrKind) (h : StopCall .rxVal 2 c k) :
      Trace .getChipId true (acked .getChipId ++ [readAll .rxLen [len], c]) (.error k)
  | chipIdTailStops (len b0 b1 : Byte) (c : Call) (k : ErrKind) (h : StopCall .rxTail 1 c k) :
      Trace .getChipId true (acked .getChipId ++ [readAll .rxLen [len], readAll .rxVal [b0, b1], c]) (.error k)
  | chipIdOk (len b0 b1 trail : Byte) :
      Trace .getChipId true
        (acked .getChipId ++ [readAll .rxLen [len], readAll .rxVal [b0, b1], readAll .rxTail [trail]])
        (.ok (.u16 (assembleChipId b0 b1)))
  | rawStops (y : Bool) (a : Word) (n : Half) (c : Call) (k : ErrKind) (hz : n ≠ 0) (h : StopCall .rxRaw n.toNat c k) :
      Trace (.readMemory a n) y [wrote (frame (.readMemory a n)), c] (.error k)
  | rawOk (y : Bool) (a : Word) (n : Half) (d : List Byte) (h : d.length = n.toNat) :
      Trace (.readMemory a n) y (wrote (frame (.readMemory a n)) :: rawCalls n d) (.ok (.bytes d))

/-- `p` is what an operation's steps gave from `s`: the calls `cs`, of a shape Trace lists; the flag set exactly by an acknowledged
ENTER; the answer to the write used up exactly when a call was made. -/
structure Traced (i : Instr) (s : State) (p : Reply Value) (cs : List Call) : Prop where
  trace : Trace i s.synchronized cs p.1
  moves : Moves s p.2 cs
  flag : p.2.synchronized = (s.synchronized || (decide (i = .enter) && decide (cs = acked .enter)))
  answers : p.2.transport.writeAnswers = if cs = [] then s.transport.writeAnswers else s.transport.writeAnswers.tail
  quiet : cs = [] → p.2 = s

/-- The calls of a read that ended the operation or gave its bytes. -/
theorem moves_read (ph : Phase) (n : Nat) {s : State} {t : Taken} (h : takeRx n s.transport.incoming = t) :
    Moves s (afterRead ph n t s) [⟨ph, .read n t.bytes t.failed⟩] := by
  subst h
  exact afterRead_moves ph n s

theorem enter_trace (s : State) : ∃ cs, Traced .enter s (enterOp s) cs := by
  rcases txWrite_cases .tx (frame .enter) s with ⟨-, e⟩ | ⟨k, -, e⟩
  · have hm := afterWrite_moves .tx (frame .enter) (frame .enter) false s
    rcases rxRead_one_cases .rxAck (afterWrite .tx (frame .enter) (frame .enter) false s) with
      ⟨b, rest, h, e'⟩ | ⟨rest, h, e'⟩ | ⟨rest, h, e'⟩
    · have hm' := hm.trans (moves_read .rxAck 1 h)
      by_cases hb : b = 0x79#8
      · subst hb
        have he : enterOp s = (.ok .unit, setSynchronized
            (afterRead .rxAck 1 ⟨[0x79#8], false, rest⟩ (afterWrite .tx (frame .enter) (frame .enter) false s))) := by
          simp only [enterOp, e, andThen_ok, e', isAck_single, decide_true, if_true]
        rw [he]
        exact ⟨acked .enter, .enterAck _, hm'.trans (setSynchronized_moves _), by simp, by simp [acked], by simp [acked]⟩
      · have he : enterOp s = (.error .noResponse,
            afterRead .rxAck 1 ⟨[b], false, rest⟩ (afterWrite .tx (frame .enter) (frame .enter) false s)) := by
          simp only [enterOp, e, andThen_ok, e', isAck_single, hb, decide_false, Bool.false_eq_true, if_false]
        rw [he]
        exact ⟨_, .enterNoResponse _ [b] (by simpa using hb) (by simp), hm',
          by simp [acked, readAll, wrote, hb], by simp, by simp⟩
    · have he : enterOp s = (.error .noResponse,
          afterRead .rxAck 1 ⟨[], false, rest⟩ (afterWrite .tx (frame .enter) (frame .enter) false s)) := by
        simp only [enterOp, e, andThen_ok, e', isAck_nil, Bool.false_eq_true, if_false]
      rw [he]
      exact ⟨_, .enterNoResponse _ [] (by simp) (by simp), hm.trans (moves_read .rxAck 1 h),
        by simp [acked, readAll, wrote], by simp, by simp⟩
    · have he : enterOp s = (.error .transportError,
          afterRead .rxAck 1 ⟨[], true, rest⟩ (afterWrite .tx (frame .enter) (frame .enter) false s)) := by
        simp only [enterOp, e, andThen_ok, e', andThen_error]
      rw [he]
      exact ⟨_, .enterFails _, hm.trans (moves_read .rxAck 1 h), by simp [acked, readAll, wrote], by simp, by simp⟩
  · have he : enterOp s = (.error .transportError,
        afterWrite .tx (frame .enter) ((frame .enter).take k) true s) := by
      simp only [enterOp, e, andThen_error]
    rw [he]
    exact ⟨_, .writeFails _ _ k (by simp [requiresSynchronized]), afterWrite_moves _ _ _ _ _,
      by simp [acked], by simp, by simp⟩

/-- SEND_COMMAND's steps as the beginning of a command `i` that transmits the same frame: they end the command, or they leave it
acknowledged. -/
theorem sendCommand_begins (i : Instr) (o : Byte) (hi : requiresSynchronized i = true) (hf : frame i = commandFrame o)
    (s : State) :
    (∃ k s' cs, sendCommandOp o s = (.error k, s') ∧ Traced i s (.error k, s') cs) ∨
    (∃ s', s.synchronized = true ∧ sendCommandOp o s = (.ok .unit, s') ∧ Moves s s' (acked i) ∧
      s'.synchronized = s.synchronized ∧ s'.transport.writeAnswers = s.transport.writeAnswers.tail) := by
  have hne : i ≠ .enter := by
    rintro rfl
    simp [requiresSynchronized] at hi
  rcases sendCommandOp_cases o s with ⟨hs, e⟩ | ⟨hs, k, -, e⟩ | ⟨hs, -, t, ht, h⟩
  · exact .inl ⟨_, _, [], e, by rw [hs]; exact .refused i hi, Moves.refl s, by simp [hne], by simp, fun _ => rfl⟩
  · refine .inl ⟨_, _, _, e, ?_, afterWrite_moves _ _ _ _ _, by simp [hne], by simp, by simp⟩
    rw [← hf]
    exact .writeFails i _ k fun _ => hs
  · have hm := (afterWrite_moves .tx (commandFrame o) (commandFrame o) false s).trans
      (moves_read .rxAck 1 (s := afterWrite .tx (commandFrame o) (commandFrame o) false s) ht)
    obtain ⟨r, f, rest⟩ := t
    rcases h with ⟨hr, hf', e⟩ | ⟨hr, hl, hf', e⟩ | ⟨hr, hf', e⟩ <;> simp only at hr hf' <;> subst hf'
    · subst hr
      refine .inr ⟨_, hs, e, ?_, by simp, by simp⟩
      have ha : acked i = [wrote (commandFrame o), readAll .rxAck [0x79]] := by rw [acked, hf]
      rw [ha]
      exact hm
    · refine .inl ⟨_, _, _, e, ?_, hm, by simp [hne], by simp, by simp⟩
      rw [← hf, hs]
      exact .nacked i hi r hr hl
    · subst hr
      refine .inl ⟨_, _, _, e, ?_, hm, by simp [hne], by simp, by simp⟩
      rw [← hf, hs]
      exact .ackFails i hi

theorem sendCommand_trace (o : Byte) (s : State) : ∃ cs, Traced (.sendCommand o) s (sendCommandOp o s) cs := by
  rcases sendCommand_begins (.sendCommand o) o rfl rfl s with ⟨k, s', cs, e, h⟩ | ⟨s', hs, e, hm, hy, hw⟩
  · exact ⟨cs, e ▸ h⟩
  · rw [e]
    exact ⟨_, by rw [hs]; exact .sendCommandOk o, hm, by simp [hy], by simp [hw, acked], by simp [acked]⟩

/-- A read that must be whole: its bytes and a longer trace, or the end of the operation. -/
theorem rxByte_steps (ph : Phase) (s : State) :
    (∃ b s', rxByte ph s = (.ok b, s') ∧ Moves s s' [readAll ph [b]] ∧ s'.synchronized = s.synchronized ∧
      s'.transport.writeAnswers = s.transport.writeAnswers) ∨
    (∃ k c s', rxByte ph s = (.error k, s') ∧ StopCall ph 1 c k ∧ Moves s s' [c] ∧ s'.synchronized = s.synchronized ∧
      s'.transport.writeAnswers = s.transport.writeAnswers) := by
  rcases rxByte_cases ph s with ⟨b, rest, h, e⟩ | ⟨rest, h, e⟩ | ⟨rest, h, e⟩
  · exact .inl ⟨b, _, e, moves_read ph 1 h, rfl, rfl⟩
  · exact .inr ⟨_, _, _, e, .short [] (by simp), moves_read ph 1 h, rfl, rfl⟩
  · exact .inr ⟨_, _, _, e, .failed [] (by simp), moves_read ph 1 h, rfl, rfl⟩

theorem rxPair_steps (ph : Phase) (s : State) :
    (∃ b0 b1 s', rxPair ph s = (.ok (b0, b1), s') ∧ Moves s s' [readAll ph [b0, b1]] ∧
      s'.synchronized = s.synchronized ∧ s'.transport.writeAnswers = s.transport.writeAnswers) ∨
    (∃ k c s', rxPair ph s = (.error k, s') ∧ StopCall ph 2 c k ∧ Moves s s' [c] ∧ s'.synchronized = s.synchronized ∧
      s'.transport.writeAnswers = s.transport.writeAnswers) := by
  rcases rxPair_cases ph s with ⟨b0, b1, rest, h, e⟩ | ⟨r, rest, hl, h, e⟩ | ⟨r, rest, hl, h, e⟩
  · exact .inl ⟨b0, b1, _, e, moves_read ph 2 h, rfl, rfl⟩
  · exact .inr ⟨_, _, _, e, .short r hl, moves_read ph 2 h, rfl, rfl⟩
  · exact .inr ⟨_, _, _, e, .failed r hl, moves_read ph 2 h, rfl, rfl⟩

theorem rxReadAll_steps (ph : Phase) {n : Nat} (hn : 0 < n) (s : State) :
    (∃ r s', r.length = n ∧ rxReadAll ph n s = (.ok r, s') ∧ Moves s s' [readAll ph r] ∧
      s'.synchronized = s.synchronized ∧ s'.transport.writeAnswers = s.transport.writeAnswers) ∨
    (∃ k c s', rxReadAll ph n s = (.error k, s') ∧ StopCall ph n c k ∧ Moves s s' [c] ∧
      s'.synchronized = s.synchronized ∧ s'.transport.writeAnswers = s.transport.writeAnswers) := by
  rcases rxReadAll_cases ph hn s with ⟨r, rest, hl, h, e⟩ | ⟨r, rest, hl, h, e⟩ | ⟨r, rest, hl, h, e⟩
  · refine .inl ⟨r, _, hl, e, ?_, rfl, rfl⟩
    have := moves_read ph n h
    rwa [readAll, hl]
  · exact .inr ⟨_, _, _, e, .short r hl, moves_read ph n h, rfl, rfl⟩
  · exact .inr ⟨_, _, _, e, .failed r hl, moves_read ph n h, rfl, rfl⟩

/-- GET_VERSION's body read, skipped or made. -/
theorem body_steps (len : Byte) (s : State) :
    (∃ body s', body.length = len.toNat ∧ rxReadAll .rxBody (bodySize len) s = (.ok body, s') ∧
      Moves s s' (bodyCalls len body) ∧ s'.synchronized = s.synchronized ∧
      s'.transport.writeAnswers = s.transport.writeAnswers) ∨
    (∃ k c s', rxReadAll .rxBody (bodySize len) s = (.error k, s') ∧ len ≠ 0 ∧ StopCall .rxBody len.toNat c k ∧
      Moves s s' [c] ∧ s'.synchronized = s.synchronized ∧ s'.transport.writeAnswers = s.transport.writeAnswers) := by
  by_cases hz : len = 0
  · subst hz
    exact .inl ⟨[], s, rfl, rxReadAll_zero _ s, by simpa [bodyCalls] using Moves.refl s, rfl, rfl⟩
  · have hn : 0 < len.toNat := Nat.pos_of_ne_zero fun h => hz (BitVec.eq_of_toNat_eq h)
    rcases rxReadAll_steps .rxBody hn s with ⟨r, s', hl, e, hm, hy, hw⟩ | ⟨k, c, s', e, hc, hm, hy, hw⟩
    · exact .inl ⟨r, s', hl, e, by simpa only [bodyCalls, hz, if_false] using hm, hy, hw⟩
    · exact .inr ⟨k, c, s', e, hz, hc, hm, hy, hw⟩

theorem getVersion_trace (s : State) : ∃ cs, Traced .getVersion s (getVersionOp s) cs := by
  rcases sendCommand_begins .getVersion Config.OP_GET_VERSION rfl rfl s with
    ⟨k, s1, cs, e1, h⟩ | ⟨s1, hs, e1, m1, y1, w1⟩
  · exact ⟨cs, by simpa [getVersionOp, e1] using h⟩
  rcases rxByte_steps .rxLen s1 with ⟨len, s2, e2, m2, y2, w2⟩ | ⟨k, c, s2, e2, hc, m2, y2, w2⟩
  rotate_left
  · simp only [getVersionOp, e1, e2, andThen_ok, andThen_error]
    exact ⟨_, by rw [hs]; exact .versionLenStops c k hc, m1.trans m2, by simp [*], by simp [*, acked], by simp [acked]⟩
  rcases rxByte_steps .rxVal s2 with ⟨ver, s3, e3, m3, y3, w3⟩ | ⟨k, c, s3, e3, hc, m3, y3, w3⟩
  rotate_left
  · simp only [getVersionOp, e1, e2, e3, andThen_ok, andThen_error]
    exact ⟨_, by rw [hs]; exact .versionValStops len c k hc, m1.trans (m2.trans m3), by simp [*], by simp [*, acked],
      by simp [acked]⟩
  rcases body_steps len s3 with ⟨body, s4, hb, e4, m4, y4, w4⟩ | ⟨k, c, s4, e4, hz, hc, m4, y4, w4⟩
  rotate_left
  · simp only [getVersionOp, e1, e2, e3, e4, andThen_ok, andThen_error]
    exact ⟨_, by rw [hs]; exact .versionBodyStops len ver c k hz hc, m1.trans (m2.trans (m3.trans m4)), by simp [*],
      by simp [*, acked], by simp [acked]⟩
  have m14 : Moves s s4 (acked .getVersion ++ [readAll .rxLen [len], readAll .rxVal [ver]] ++ bodyCalls len body) :=
    (m1.trans (m2.trans m3)).trans m4
  rcases rxByte_steps .rxTail s4 with ⟨trail, s5, e5, m5, y5, w5⟩ | ⟨k, c, s5, e5, hc, m5, y5, w5⟩
  · simp only [getVersionOp, e1, e2, e3, e4, e5, andThen_ok]
    exact ⟨_, by rw [hs]; exact .versionOk len ver body trail hb, m14.trans m5, by simp [*], by simp [*, acked],
      by simp [acked]⟩
  · simp only [getVersionOp, e1, e2, e3, e4, e5, andThen_ok, andThen_error]
    exact ⟨_, by rw [hs]; exact .versionTailStops len ver body c k hb hc, m14.trans m5, by simp [*],
      by simp [*, acked], by simp [acked]⟩

theorem getChipId_trace (s : State) : ∃ cs, Traced .getChipId s (getChipIdOp s) cs := by
  rcases sendCommand_begins .getChipId Config.OP_GET_CHIP_ID rfl rfl s with
    ⟨k, s1, cs, e1, h⟩ | ⟨s1, hs, e1, m1, y1, w1⟩
  · exact ⟨cs, by simpa [getChipIdOp, e1] using h⟩
  rcases rxByte_steps .rxLen s1 with ⟨len, s2, e2, m2, y2, w2⟩ | ⟨k, c, s2, e2, hc, m2, y2, w2⟩
  rotate_left
  · simp only [getChipIdOp, e1, e2, andThen_ok, andThen_error]
    exact ⟨_, by rw [hs]; exact .chipIdLenStops c k hc, m1.trans m2, by simp [*], by simp [*, acked], by simp [acked]⟩
  rcases rxPair_steps .rxVal s2 with ⟨b0, b1, s3, e3, m3, y3, w3⟩ | ⟨k, c, s3, e3, hc, m3, y3, w3⟩
  rotate_left
  · simp only [getChipIdOp, e1, e2, e3, andThen_ok, andThen_error]
    exact ⟨_, by rw [hs]; exact .chipIdValStops len c k hc, m1.trans (m2.trans m3), by simp [*], by simp [*, acked],
      by simp [acked]⟩
  rcases rxByte_steps .rxTail s3 with ⟨trail, s4, e4, m4, y4, w4⟩ | ⟨k, c, s4, e4, hc, m4, y4, w4⟩
  · simp only [getChipIdOp, e1, e2, e3, e4, andThen_ok]
    exact ⟨_, by rw [hs]; exact .chipIdOk len b0 b1 trail, m1.trans (m2.trans (m3.trans m4)), by simp [*],
      by simp [*, acked], by simp [acked]⟩
  · simp only [getChipIdOp, e1, e2, e3, e4, andThen_ok, andThen_error]
    exact ⟨_, by rw [hs]; exact .chipIdTailStops len b0 b1 c k hc, m1.trans (m2.trans (m3.trans m4)), by simp [*],
      by simp [*, acked], by simp [acked]⟩

theorem readMemory_trace (a : Word) (n : Half) (s : State) :
    ∃ cs, Traced (.readMemory a n) s (readMemoryOp a n s) cs := by
  rcases txWrite_cases .tx (frame (.readMemory a n)) s with ⟨-, e⟩ | ⟨k, -, e⟩
  · have hm := afterWrite_moves .tx (frame (.readMemory a n)) (frame (.readMemory a n)) false s
    by_cases hz : n = 0
    · subst hz
      simp only [readMemoryOp, e, andThen_ok, rawSize, show BitVec.toNat (0 : Half) = 0 from rfl, rxReadAll_zero]
      exact ⟨_, .rawOk _ a 0 [] rfl, by simpa [rawCalls, wrote] using hm, by simp, by simp, by simp⟩
    · have hn : 0 < n.toNat := Nat.pos_of_ne_zero fun h => hz (BitVec.eq_of_toNat_eq h)
      rcases rxReadAll_steps .rxRaw hn (afterWrite .tx (frame (.readMemory a n)) (frame (.readMemory a n)) false s)
        with ⟨d, s', hl, e', m, y, w⟩ | ⟨k, c, s', e', hc, m, y, w⟩
      · simp only [readMemoryOp, e, andThen_ok, rawSize, e']
        exact ⟨_, .rawOk _ a n d hl, by rw [rawCalls, if_neg hz]; exact hm.trans m, by simp [y], by simp [w],
          by simp⟩
      · simp only [readMemoryOp, e, andThen_ok, rawSize, e', andThen_error]
        exact ⟨_, .rawStops _ a n c k hz hc, hm.trans m, by simp [y], by simp [w], by simp⟩
  · simp only [readMemoryOp, e, andThen_error]
    exact ⟨_, .writeFails _ _ k (by simp [requiresSynchronized]), afterWrite_moves _ _ _ _ _, by simp, by simp, by simp⟩

/-- Every operation's steps have one of the shapes of Trace. -/
theorem operation_trace (i : Instr) (s : State) : ∃ cs, Traced i s (operationOf i s) cs := by
  cases i with
  | enter => exact enter_trace s
  | sendCommand o => exact sendCommand_trace o s
  | getVersion => exact getVersion_trace s
  | getChipId => exact getChipId_trace s
  | readMemory a n => exact readMemory_trace a n s

/-- What an operation that answers a next state has done: everything a claim about calls and results needs. -/
theorem exec_trace {i : Instr} {s t : State} (h : exec i s = .next t) :
    ∃ cs res, Ready s ∧ Trace i s.synchronized cs res ∧
      t.activity = .idle ∧ t.settings = s.settings ∧ t.requests = s.requests ∧
      t.delivered = s.delivered ++ [resultOf res] ∧ t.transport.isOpen = s.transport.isOpen ∧
      t.transport.calls = s.transport.calls ++ cs ∧
      streamBytes s.transport.incoming = rxTaken cs ++ streamBytes t.transport.incoming ∧
      t.synchronized = (s.synchronized || (decide (i = .enter) && decide (cs = acked .enter))) ∧
      t.transport.writeAnswers = (if cs = [] then s.transport.writeAnswers else s.transport.writeAnswers.tail) ∧
      (cs = [] → t.transport = s.transport) := by
  obtain ⟨hr, rfl⟩ := exec_next h
  obtain ⟨cs, hT⟩ := operation_trace i s
  refine ⟨cs, _, hr, hT.trace, rfl, hT.moves.settings, hT.moves.requests, ?_, hT.moves.isOpen, hT.moves.calls,
    hT.moves.bytes, hT.flag, hT.answers, ?_⟩
  · rw [deliver_delivered, hT.moves.delivered]
  · intro hc
    show (operationOf i s).2.transport = s.transport
    rw [hT.quiet hc]

end Sys2Proof.Machine
end

