-- ==== Sys2Proof/Laws/Steps.lean ====
section
/-! SUPPORT. What a micro-step, a run of micro-steps and a step of the machine can do: inversion lemmas for claims over steps. -/

namespace Sys2Proof.Machine

/-! ### One transport call -/

/-- The step `p` of an operation made at most one call from `s`, in phase `ph`, and touched nothing but the transport. -/
def OneCall {α : Type} (ph : Phase) (s : State) (p : Reply α) : Prop :=
  ∃ cs, cs.length ≤ 1 ∧ (∀ c ∈ cs, c.phase = ph) ∧ Moves s p.2 cs ∧ p.2.synchronized = s.synchronized

theorem txWrite_oneCall (ph : Phase) (bs : List Byte) (s : State) : OneCall ph s (txWrite ph bs s) := by
  rcases txWrite_cases ph bs s with ⟨-, e⟩ | ⟨k, -, e⟩ <;> rw [e] <;>
    exact ⟨_, by simp, by simp, afterWrite_moves _ _ _ _ _, rfl⟩

theorem rxRead_oneCall (ph : Phase) (n : Nat) (s : State) : OneCall ph s (rxRead ph n s) := by
  by_cases h : n = 0
  · subst h
    exact ⟨[], by simp, by simp, Moves.refl s, rfl⟩
  · rw [rxRead_pos (Nat.pos_of_ne_zero h)]
    exact ⟨_, by simp, by simp, afterRead_moves ph n s, rfl⟩

/-- Judging what a read gave makes no further call. -/
theorem OneCall.judged {α β : Type} {ph : Phase} {s : State} {p : Reply α} (h : OneCall ph s p)
    {f : α → State → Reply β} (hf : ∀ a s, (f a s).2 = s) : OneCall ph s (andThen p f) := by
  obtain ⟨k | a, s'⟩ := p
  · exact h
  · show OneCall ph s (f a s')
    rw [OneCall, hf]
    exact h

theorem rxByte_oneCall (ph : Phase) (s : State) : OneCall ph s (rxByte ph s) :=
  (rxRead_oneCall ph 1 s).judged fun r s => by cases r <;> rfl

theorem rxPair_oneCall (ph : Phase) (s : State) : OneCall ph s (rxPair ph s) :=
  (rxRead_oneCall ph 2 s).judged fun r s => by match r with | [] => rfl | [_] => rfl | _ :: _ :: _ => rfl

theorem rxReadAll_oneCall (ph : Phase) (n : Nat) (s : State) : OneCall ph s (rxReadAll ph n s) :=
  (rxRead_oneCall ph n s).judged fun r s => by by_cases h : r.length < n <;> simp [h]

/-! ### One micro-step -/

/-- What a sequencer's move from `s` to `t` with the calls `cs` leaves alone, and that it either goes on or delivers one result. -/
structure SeqMoves (s t : State) (cs : List Call) : Prop where
  settings : t.settings = s.settings
  requests : t.requests = s.requests
  isOpen : t.transport.isOpen = s.transport.isOpen
  calls : t.transport.calls = s.transport.calls ++ cs
  bytes : streamBytes s.transport.incoming = rxTaken cs ++ streamBytes t.transport.incoming
  ends : (t.activity ≠ .idle ∧ t.delivered = s.delivered) ∨ (t.activity = .idle ∧ ∃ r, t.delivered = s.delivered ++ [r])
  flagKept : s.synchronized = true → t.synchronized = true

/-- Where a call is followed by a move that makes none. -/
theorem SeqMoves.of_call {α : Type} {ph : Phase} {s : State} {p : Reply α} (h : OneCall ph s p) {f : α → State → State}
    (hf : ∀ a s', s'.delivered = s.delivered → SeqMoves s' (f a s') []) :
    ∃ cs, cs.length ≤ 1 ∧ (∀ c ∈ cs, c.phase = ph) ∧ SeqMoves s (proceed p f) cs := by
  obtain ⟨cs, hl, hp, hm, hy⟩ := h
  refine ⟨cs, hl, hp, ?_⟩
  obtain ⟨k | a, s'⟩ := p
  · exact ⟨hm.settings, hm.requests, hm.isOpen, hm.calls, hm.bytes,
      .inr ⟨rfl, .err k, by rw [proceed_error, deliver_delivered, hm.delivered]; rfl⟩, fun h => hy.trans h⟩
  · have hk := hf a s' hm.delivered
    have hc := hk.calls
    have hb := hk.bytes
    rw [List.append_nil] at hc
    simp only [rxTaken_nil, List.nil_append] at hb
    refine ⟨hk.settings.trans hm.settings, hk.requests.trans hm.requests, hk.isOpen.trans hm.isOpen, hc.trans hm.calls,
      by rw [proceed_ok, ← hb]; exact hm.bytes, ?_, fun h => hk.flagKept (hy.trans h)⟩
    have := hk.ends
    rwa [hm.delivered] at this

theorem goto_seqMoves {a : Activity} (ha : a ≠ .idle) (s : State) : SeqMoves s (goto a s) [] :=
  ⟨rfl, rfl, rfl, by simp, rfl, .inl ⟨ha, rfl⟩, id⟩

theorem deliver_seqMoves (x : Except ErrKind Value) (s : State) : SeqMoves s (deliver (x, s)) [] :=
  ⟨rfl, rfl, rfl, by simp, rfl, .inr ⟨rfl, _, rfl⟩, id⟩

theorem deliver_set_seqMoves (x : Except ErrKind Value) (s : State) : SeqMoves s (deliver (x, setSynchronized s)) [] :=
  ⟨rfl, rfl, rfl, by simp, rfl, .inr ⟨rfl, _, rfl⟩, fun _ => rfl⟩

theorem afterFrame_seqMoves (op : Instr) (s : State) : SeqMoves s (afterFrame op s) [] := by
  cases op with
  | readMemory a n =>
    simp only [afterFrame]
    split
    · exact deliver_seqMoves _ s
    · exact goto_seqMoves (by simp) s
  | _ => exact goto_seqMoves (by simp) s

theorem afterAck_seqMoves (f : Follow) (s : State) : SeqMoves s (afterAck f s) [] := by
  cases f with
  | nothing => exact deliver_seqMoves _ s
  | _ => exact goto_seqMoves (by simp) s

/-- What a micro-step can do from a position that is not IDLE. -/
theorem microStep_moves {s : State} (h : s.activity ≠ .idle) :
    ∃ cs, cs.length ≤ 1 ∧ (∀ c ∈ cs, c.phase = s.activity.phase) ∧ SeqMoves s (microStep s) cs := by
  unfold microStep
  cases ha : s.activity with
  | idle => exact absurd ha h
  | tx op => exact SeqMoves.of_call (txWrite_oneCall .tx _ s) fun _ s' _ => afterFrame_seqMoves op s'
  | syncAck =>
    refine SeqMoves.of_call (rxRead_oneCall .rxAck 1 s) fun r s' _ => ?_
    split
    · exact deliver_set_seqMoves _ s'
    · exact deliver_seqMoves _ s'
  | cmdAck f =>
    refine SeqMoves.of_call (rxRead_oneCall .rxAck 1 s) fun r s' _ => ?_
    split
    · exact afterAck_seqMoves f s'
    · exact deliver_seqMoves _ s'
  | lenV => exact SeqMoves.of_call (rxByte_oneCall .rxLen s) fun _ s' _ => goto_seqMoves (by simp) s'
  | lenI => exact SeqMoves.of_call (rxByte_oneCall .rxLen s) fun _ s' _ => goto_seqMoves (by simp) s'
  | valV len =>
    refine SeqMoves.of_call (rxByte_oneCall .rxVal s) fun _ s' _ => ?_
    split <;> exact goto_seqMoves (by simp) s'
  | valI => exact SeqMoves.of_call (rxPair_oneCall .rxVal s) fun _ s' _ => goto_seqMoves (by simp) s'
  | bodyV len ver => exact SeqMoves.of_call (rxReadAll_oneCall .rxBody _ s) fun _ s' _ => goto_seqMoves (by simp) s'
  | tail value => exact SeqMoves.of_call (rxByte_oneCall .rxTail s) fun _ s' _ => deliver_seqMoves _ s'
  | raw n => exact SeqMoves.of_call (rxReadAll_oneCall .rxRaw _ s) fun _ s' _ => deliver_seqMoves _ s'

/-! ### A step of the machine -/

/-- What a step that answers a next state can have been: the operation of the next request, nothing, or the end of the operation
in progress. -/
theorem step_next_cases {s t : State} (h : step s = .next t) :
    s.transport.isOpen = true ∧
    ((∃ r rest i, s.activity = .idle ∧ s.requests = r :: rest ∧ decode r = .ok i ∧
        exec i { s with requests := rest } = .next t) ∨
     (s.activity = .idle ∧ s.requests = [] ∧ t = s) ∨
     (s.activity ≠ .idle ∧ t = finish s)) := by
  by_cases ho : s.transport.isOpen = true
  · refine ⟨ho, ?_⟩
    by_cases ha : s.activity = .idle
    · cases hq : s.requests with
      | nil =>
        simp only [step, fetch, ho, ha, hq] at h
        exact .inr (.inl ⟨ha, rfl, by simpa using h.symm⟩)
      | cons r rest =>
        cases hd : decode r with
        | error e => simp [step, fetch, ho, ha, hq, hd] at h
        | ok i => exact .inl ⟨r, rest, i, ha, rfl, hd, by simpa [step, fetch, ho, ha, hq, hd] using h⟩
    · simp [step, fetch, ho, ha] at h
      exact .inr (.inr ⟨ha, h.symm⟩)
  · simp [step, fetch, ho] at h

end Sys2Proof.Machine
end

