-- ==== Sys2Proof/Tests/Slice0.lean ====
section
/-! SUPPORT. Tests and witnesses. Expected values come from the spec's encodings (30_encoding.md), from its vectors (95_test_vectors.md, named by their ids) or from its formulas; a witness shows a state and operands that meet the hypotheses of the statement it names. -/

namespace Sys2Proof.Tests

open Sys2Proof.Machine

/-! ### Helpers -/

/-- A session on an open transport with the flag `sync` and the receive stream `items`. -/
def session (sync : Bool) (items : List RxItem) : State :=
  { State.reset with synchronized := sync, transport := { State.reset.transport with incoming := items } }

/-- `s` with the answers to its coming writes. -/
def answering (answers : List WriteAnswer) (s : State) : State :=
  { s with transport := { s.transport with writeAnswers := answers } }

/-- `s` with requests at its port. -/
def asked (rs : List Request) (s : State) : State := { s with requests := rs }

/-- `s` with a call history. -/
def called (cs : List Call) (s : State) : State := { s with transport := { s.transport with calls := cs } }

/-- The next state, if there is one. -/
def nextOf (o : Host.Outcome State Fault Refusal) : Option State :=
  match o with
  | .next s => some s
  | .fault _ => none
  | .refused _ => none

/-- What a vector of 95_test_vectors.md lists: the transmitted bytes, the result, what is left of the stream, the flag. -/
def observe (o : Host.Outcome State Fault Refusal) : Option (List Byte × List Result × List RxItem × Bool) :=
  (nextOf o).map fun s => (txStream s.transport.calls, s.delivered, s.transport.incoming, s.synchronized)

/-- The refusal, if there is one. -/
def refusalOf (o : Host.Outcome State Fault Refusal) : Option Refusal :=
  match o with
  | .next _ => none
  | .fault _ => none
  | .refused r => some r

/-- The fault, if there is one. -/
def faultOf (o : Host.Outcome State Fault Refusal) : Option Fault :=
  match o with
  | .next _ => none
  | .fault f => some f
  | .refused _ => none

/-! ### Well-formedness: each check refuses an ill-formed term -/

theorem test_request_selector_5_ill_formed : (Request.mk 5 0 0 0).wellFormed = false := by decide
theorem test_request_selector_7_ill_formed : (Request.mk 7 1 2 3).wellFormed = false := by decide
theorem test_request_selector_4_well_formed : (Request.mk 4 0 0 0).wellFormed = true := by decide
theorem test_settings_baud_0_ill_formed : (Settings.mk "p" 0 1).wellFormed = false := by decide
theorem test_settings_timeout_0_ill_formed : (Settings.mk "p" 115200 0).wellFormed = false := by decide
theorem test_settings_default_well_formed : Settings.default.wellFormed = true := by decide

/-! ### Decoding: words written out from 30_encoding.md R61 to R65 and R81 -/

theorem test_decode_enter_word : decodeTableWord 8 0b01111111 = some .enter := by decide
theorem test_decode_send_command_word :
    decodeTableWord 16 0b1010010101011010 = some (.sendCommand 0b10100101) := by decide
theorem test_decode_send_command_all_ones : decodeTableWord 16 0b1111111100000000 = some (.sendCommand 0xFF) := by decide
theorem test_decode_get_version_word : decodeTableWord 16 0b0000000111111110 = some .getVersion := by decide
theorem test_decode_get_chip_id_word : decodeTableWord 16 0b0000001011111101 = some .getChipId := by decide
theorem test_decode_read_memory_word :
    decodeTableWord 40 0b0001000101111000010101100011010000010010 = some (.readMemory 0x12345678 0) := by decide
theorem test_decode_bad_checksum_refused : decodeFrame [0xA5, 0x5B] 0 = .error (.badChecksum 0xA5 0x5B) := by decide
theorem test_decode_other_byte_refused : decodeFrame [0x1F] 0 = .error (.notSyncByte 0x1F) := by decide
theorem test_decode_other_length_refused : decodeFrame [0x11, 0, 0] 0 = .error (.noSuchFrameLength 3) := by decide
theorem test_decode_other_opcode_refused :
    decodeFrame [0xEE, 0, 0, 0, 0] 0 = .error (.notReadRequest 0xEE) := by decide

theorem test_port_selector_0 : decode ⟨0b000, 0, 0, 0⟩ = .ok .enter := by decide
theorem test_port_selector_1 : decode ⟨0b001, 0xA5, 0, 0⟩ = .ok (.sendCommand 0xA5) := by decide
theorem test_port_selector_2 : decode ⟨0b010, 0, 0, 0⟩ = .ok .getVersion := by decide
theorem test_port_selector_3 : decode ⟨0b011, 0, 0, 0⟩ = .ok .getChipId := by decide
theorem test_port_selector_4 : decode ⟨0b100, 0, 0xDEADBEEF, 0x1234⟩ = .ok (.readMemory 0xDEADBEEF 0x1234) := by decide
theorem test_port_selector_6 : decode ⟨0b110, 0, 0, 0⟩ = .error (.reservedSelector 6) := by decide

/-- The call syntax of R79. -/
theorem test_call_text : callText (.readMemory 256 16) = "read_memory(256, 16)" := by decide

/-! ### One operation each, from the vectors -/

/-- E6: one byte is consumed, a stale one stays. -/
theorem test_enter_consumes_one_byte :
    observe (exec .enter (session false (bytesIn [0x79, 0x79]))) =
      some ([0x7F], [.ok .unit], bytesIn [0x79], true) := by decide

/-- E7: a failed second handshake leaves the flag set. -/
theorem test_enter_failure_keeps_flag :
    observe (exec .enter (session true (bytesIn [0x1F]))) =
      some ([0x7F], [.err .noResponse], [], true) := by decide

/-- K11: an explicit negative acknowledge. -/
theorem test_send_command_nacked :
    observe (exec (.sendCommand 0x01) (session true (bytesIn [0x1F]))) =
      some ([0x01, 0xFE], [.err (.nacked (.byte 0x1F))], [], true) := by decide

/-- K15: before the handshake. -/
theorem test_send_command_refused :
    observe (exec (.sendCommand 0x01) (session false (bytesIn [0x79]))) =
      some ([], [.err .refused], bytesIn [0x79], false) := by decide

/-- V3: a body of two bytes. -/
theorem test_get_version_body :
    observe (exec .getVersion (session true (bytesIn [0x79, 0x02, 0x10, 0x00, 0x00, 0x79]))) =
      some ([0x01, 0xFE], [.ok (.u8 0x10)], [], true) := by decide

/-- V14: a body cut short by a timeout; the late bytes stay. -/
theorem test_get_version_body_short :
    observe (exec .getVersion (session true
      (bytesIn [0x79, 0x03, 0x22, 0x00] ++ .timeout :: bytesIn [0x00, 0x00, 0x79]))) =
      some ([0x01, 0xFE], [.err .shortRead], bytesIn [0x00, 0x00, 0x79], true) := by decide

/-- I4: big-endian. -/
theorem test_get_chip_id_big_endian :
    observe (exec .getChipId (session true (bytesIn [0x79, 0x01, 0x30, 0x04, 0x79]))) =
      some ([0x02, 0xFD], [.ok (.u16 0x3004)], [], true) := by decide

/-- T2: a failure at the identifier read; two bytes are consumed, the flag stays. -/
theorem test_get_chip_id_transport_error :
    observe (exec .getChipId (session true (bytesIn [0x79, 0x01] ++ [.failure]))) =
      some ([0x02, 0xFD], [.err .transportError], [], true) := by decide

/-- M3: address byte order; ten bytes of sixteen are no result. -/
theorem test_read_memory_short :
    observe (exec (.readMemory 0x12345678 16) (session false (bytesIn [0, 1, 2, 3, 4, 5, 6, 7, 8, 9]))) =
      some ([0x11, 0x78, 0x56, 0x34, 0x12], [.err .shortRead], [], false) := by decide

/-- M6: acknowledge values are data here. -/
theorem test_read_memory_raw :
    observe (exec (.readMemory 0 2) (session true (bytesIn [0x79, 0x1F]))) =
      some ([0x11, 0, 0, 0, 0], [.ok (.bytes [0x79, 0x1F])], [], true) := by decide

/-- The decode helper on the document's second worked value (95 section 3.5). -/
theorem test_decode_le32 : decodeLe32 0x78 0x56 0x34 0x12 = 0x12345678 := by decide

/-- R35: nothing issued, nothing happens. -/
theorem test_step_waits : nextOf (step State.reset) = some State.reset := by decide

/-! ### Witnesses: encoding -/

theorem witness_SelectorCodesSelectTheOperations :
    (Request.mk 4 0 0 0).op = 4 ∧ 5 ≤ (Request.mk 5 0 0 0).op.toNat ∧ 5 ≤ (Request.mk 7 0 0 0).op.toNat ∧
    Ready (asked [⟨7, 0, 0, 0⟩, ⟨0, 0, 0, 0⟩] State.reset) ∧
    (asked [⟨7, 0, 0, 0⟩, ⟨0, 0, 0, 0⟩] State.reset).requests = Request.mk 7 0 0 0 :: [⟨0, 0, 0, 0⟩] ∧
    refusalOf (step (asked [⟨5, 0, 0, 0⟩] State.reset)) = some (.reservedSelector 5) := by decide

theorem witness_FramesAndOperationsAgree :
    Instr.sendCommand 0x00 ≠ .sendCommand 0x01 ∧ Instr.sendCommand 0x00 ≠ .sendCommand 0x02 ∧
    decodeFrame [0x11, 0xFF, 0x00, 0x00, 0x80] 0xFFFF = .ok (.readMemory 0x800000FF 0xFFFF) := by decide

theorem witness_DecodeLe32UndoesTheSplit :
    Ready (session false (bytesIn [0x04, 0x15, 0x01, 0x40] ++ [.timeout])) ∧
    WriteCompletes (session false (bytesIn [0x04, 0x15, 0x01, 0x40] ++ [.timeout])) ∧
    (session false (bytesIn [0x04, 0x15, 0x01, 0x40] ++ [.timeout])).transport.incoming =
      bytesIn [0x04, 0x15, 0x01, 0x40] ++ [.timeout] := by decide

/-! ### Witnesses: the transport primitives -/

/-- RxReadTakesTheFrontOfTheStream at a full read, a timeout, silence and a failure. -/
theorem witness_RxReadTakesTheFrontOfTheStream :
    0 < 1 ∧ takeRx 1 (bytesIn [7, 8]) = ⟨[7], false, bytesIn [8]⟩ ∧
    takeRx 2 (bytesIn [7] ++ .timeout :: bytesIn [8]) = ⟨[7], false, bytesIn [8]⟩ ∧
    takeRx 2 (bytesIn [7]) = ⟨[7], false, []⟩ ∧
    takeRx 2 (bytesIn [7] ++ .failure :: bytesIn [8]) = ⟨[7], true, bytesIn [8]⟩ := by decide

theorem witness_EnvironmentMayAnswerAnyRead :
    0 < 2 ∧ ([] : List Byte).length ≤ 2 ∧ ([7, 8] : List Byte).length ≤ 2 := by decide

theorem witness_ZeroSizeReadMakesNoCall :
    Ready (session true (bytesIn [0x79, 0x00, 0x31, 0x79] ++ bytesIn [0xAA])) ∧
    (session true (bytesIn [0x79, 0x00, 0x31, 0x79] ++ bytesIn [0xAA])).synchronized = true ∧
    WriteCompletes (session true (bytesIn [0x79, 0x00, 0x31, 0x79] ++ bytesIn [0xAA])) ∧
    (session true (bytesIn [0x79, 0x00, 0x31, 0x79] ++ bytesIn [0xAA])).transport.incoming =
      bytesIn [0x79, 0x00, 0x31, 0x79] ++ bytesIn [0xAA] := by decide

theorem witness_TxWriteSendsAllOrAPrefix :
    ([] : List Byte) <+: [0x01, 0xFE] ∧ ([0x01] : List Byte) <+: [0x01, 0xFE] ∧
    ([0x01, 0xFE] : List Byte) <+: [0x01, 0xFE] := by decide

/-! ### Witnesses: streams that stop -/

theorem stops_silence : Stops [] [] := .silence
theorem stops_timeout : Stops (.timeout :: bytesIn [0x79]) (bytesIn [0x79]) := .timeout _

/-! ### Witnesses: ENTER and SEND_COMMAND, one for each clause -/

theorem witness_EnterSynchronizesOnAckOnly_ack :
    Ready (session false (bytesIn [0x79, 0x79])) ∧ WriteCompletes (session false (bytesIn [0x79, 0x79])) ∧
    (session false (bytesIn [0x79, 0x79])).transport.incoming = .byte 0x79 :: bytesIn [0x79] := by decide

theorem witness_EnterSynchronizesOnAckOnly_other :
    Ready (session true (bytesIn [0x7F])) ∧ WriteCompletes (session true (bytesIn [0x7F])) ∧
    (session true (bytesIn [0x7F])).transport.incoming = .byte 0x7F :: [] ∧ (0x7F : Byte) ≠ 0x79 := by decide

theorem witness_EnterSynchronizesOnAckOnly_silence :
    Ready (session false []) ∧ WriteCompletes (session false []) ∧ Stops (session false []).transport.incoming [] :=
  ⟨by decide, by decide, .silence⟩

/-- E9. -/
theorem witness_EnterSynchronizesOnAckOnly_timeout :
    Ready (session false (.timeout :: bytesIn [0x79])) ∧ WriteCompletes (session false (.timeout :: bytesIn [0x79])) ∧
    Stops (session false (.timeout :: bytesIn [0x79])).transport.incoming (bytesIn [0x79]) :=
  ⟨by decide, by decide, .timeout _⟩

theorem witness_EnterSynchronizesOnAckOnly_failure :
    Ready (session false (.failure :: bytesIn [0x79])) ∧ WriteCompletes (session false (.failure :: bytesIn [0x79])) ∧
    (session false (.failure :: bytesIn [0x79])).transport.incoming = .failure :: bytesIn [0x79] := by decide

/-- A failed write, with nothing and with everything on the wire. -/
theorem witness_EnterSynchronizesOnAckOnly_write :
    Ready (answering [.fails 0] (session false [])) ∧
    nextWriteAnswer (answering [.fails 0] (session false [])) = .fails 0 ∧
    nextWriteAnswer (answering [.fails 1] (session false [])) = .fails 1 := by decide

theorem witness_SendCommandWritesFrameAndTestsAck_ack :
    Ready (session true (bytesIn [0x79, 0x01])) ∧ (session true (bytesIn [0x79, 0x01])).synchronized = true ∧
    WriteCompletes (session true (bytesIn [0x79, 0x01])) ∧
    (session true (bytesIn [0x79, 0x01])).transport.incoming = .byte 0x79 :: bytesIn [0x01] := by decide

theorem witness_SendCommandWritesFrameAndTestsAck_other :
    Ready (session true (bytesIn [0x1F])) ∧ (session true (bytesIn [0x1F])).synchronized = true ∧
    WriteCompletes (session true (bytesIn [0x1F])) ∧
    (session true (bytesIn [0x1F])).transport.incoming = .byte 0x1F :: [] ∧ (0x1F : Byte) ≠ 0x79 := by decide

theorem witness_SendCommandWritesFrameAndTestsAck_silence :
    Ready (session true []) ∧ (session true []).synchronized = true ∧ WriteCompletes (session true []) ∧
    Stops (session true []).transport.incoming [] :=
  ⟨by decide, by decide, by decide, .silence⟩

theorem witness_SendCommandWritesFrameAndTestsAck_failure :
    Ready (session true [.failure]) ∧ (session true [.failure]).synchronized = true ∧
    WriteCompletes (session true [.failure]) ∧ (session true [.failure]).transport.incoming = .failure :: [] := by decide

theorem witness_SendCommandWritesFrameAndTestsAck_write :
    Ready (answering [.fails 1] (session true [])) ∧ (answering [.fails 1] (session true [])).synchronized = true ∧
    nextWriteAnswer (answering [.fails 1] (session true [])) = .fails 1 := by decide

theorem witness_StandardCommandsRefusedBeforeHandshake :
    Ready State.reset ∧ State.reset.synchronized = false ∧ ∃ o, Instr.sendCommand 0xFF = .sendCommand o :=
  ⟨by decide, by decide, 0xFF, rfl⟩

/-! ### Witnesses: GET_VERSION and GET_CHIP_ID -/

/-- V2, `L = 0`. -/
theorem witness_GetVersionReturnsByteAfterLength_no_body :
    Ready (session true (bytesIn [0x79, 0x00, 0x31, 0x79])) ∧ (session true (bytesIn [0x79, 0x00, 0x31, 0x79])).synchronized = true ∧
    WriteCompletes (session true (bytesIn [0x79, 0x00, 0x31, 0x79])) ∧ ([] : List Byte).length = (0x00 : Byte).toNat ∧
    (session true (bytesIn [0x79, 0x00, 0x31, 0x79])).transport.incoming =
      bytesIn ([0x79, 0x00, 0x31] ++ [] ++ [0x79]) ++ [] := by decide

/-- V4, `L = 255`. -/
theorem witness_GetVersionReturnsByteAfterLength_longest_body :
    let s := session true (bytesIn ([0x79, 0xFF, 0x42] ++ List.replicate 255 0x00 ++ [0x79]) ++ [])
    Ready s ∧ s.synchronized = true ∧ WriteCompletes s ∧
    (List.replicate 255 (0x00 : Byte)).length = (0xFF : Byte).toNat ∧
    s.transport.incoming = bytesIn ([0x79, 0xFF, 0x42] ++ List.replicate 255 0x00 ++ [0x79]) ++ [] :=
  ⟨⟨rfl, rfl⟩, rfl, rfl, List.length_replicate, rfl⟩

/-- V9, nothing after the acknowledge. -/
theorem witness_GetVersionCutShort_no_length :
    let got : List Byte := [0x79]
    let s := session true (bytesIn got ++ [])
    Ready s ∧ s.synchronized = true ∧ WriteCompletes s ∧ Stops [] [] ∧ got.length < 3 ∧ got[0]? = some 0x79 ∧
    s.transport.incoming = bytesIn got ++ [] :=
  ⟨⟨rfl, rfl⟩, rfl, rfl, .silence, by decide, rfl, rfl⟩

/-- V10, the version byte missing. -/
theorem witness_GetVersionCutShort_no_version :
    let got : List Byte := [0x79, 0x01]
    let s := session true (bytesIn got ++ [])
    Ready s ∧ s.synchronized = true ∧ WriteCompletes s ∧ Stops [] [] ∧ got.length < 3 ∧ got[0]? = some 0x79 ∧
    s.transport.incoming = bytesIn got ++ [] :=
  ⟨⟨rfl, rfl⟩, rfl, rfl, .silence, by decide, rfl, rfl⟩

/-- V14, the body cut short by a timeout, late bytes behind it. -/
theorem witness_GetVersionCutShort_body :
    let got : List Byte := [0x79, 0x03, 0x22, 0x00]
    let stop : List RxItem := .timeout :: bytesIn [0x00, 0x00, 0x79]
    let s := session true (bytesIn got ++ stop)
    Ready s ∧ s.synchronized = true ∧ WriteCompletes s ∧ Stops stop (bytesIn [0x00, 0x00, 0x79]) ∧
    (∃ len, got[1]? = some len ∧ got.length < 4 + len.toNat) ∧ got[0]? = some 0x79 ∧
    s.transport.incoming = bytesIn got ++ stop :=
  ⟨⟨rfl, rfl⟩, rfl, rfl, .timeout _, ⟨0x03, by decide⟩, rfl, rfl⟩

/-- Only the trailing byte missing, with `L = 0`: three bytes of four. -/
theorem witness_GetVersionCutShort_trailer :
    let got : List Byte := [0x79, 0x00, 0x31]
    let s := session true (bytesIn got ++ [])
    Ready s ∧ s.synchronized = true ∧ WriteCompletes s ∧ Stops [] [] ∧
    (∃ len, got[1]? = some len ∧ got.length < 4 + len.toNat) ∧ got[0]? = some 0x79 ∧
    s.transport.incoming = bytesIn got ++ [] :=
  ⟨⟨rfl, rfl⟩, rfl, rfl, .silence, ⟨0x00, by decide⟩, rfl, rfl⟩

/-- I2 with bytes behind it. -/
theorem witness_GetChipIdIgnoresLengthAndTrailer :
    let s := session true (bytesIn [0x79, 0x05, 0x04, 0x30, 0x00] ++ bytesIn [0x79])
    Ready s ∧ s.synchronized = true ∧ WriteCompletes s ∧
    s.transport.incoming = bytesIn [0x79, 0x05, 0x04, 0x30, 0x00] ++ bytesIn [0x79] :=
  ⟨⟨rfl, rfl⟩, rfl, rfl, rfl⟩

/-- I10, the shortest reply. -/
theorem witness_GetChipIdCutShort_shortest :
    let got : List Byte := [0x79]
    let s := session true (bytesIn got ++ [])
    Ready s ∧ s.synchronized = true ∧ WriteCompletes s ∧ Stops [] [] ∧ got.length < 5 ∧ got[0]? = some 0x79 ∧
    s.transport.incoming = bytesIn got ++ [] :=
  ⟨⟨rfl, rfl⟩, rfl, rfl, .silence, by decide, rfl, rfl⟩

/-- I12, the longest one, ended by a timeout. -/
theorem witness_GetChipIdCutShort_longest :
    let got : List Byte := [0x79, 0x01, 0x04, 0x30]
    let stop : List RxItem := .timeout :: bytesIn [0x79]
    let s := session true (bytesIn got ++ stop)
    Ready s ∧ s.synchronized = true ∧ WriteCompletes s ∧ Stops stop (bytesIn [0x79]) ∧ got.length < 5 ∧
    got[0]? = some 0x79 ∧ s.transport.incoming = bytesIn got ++ stop :=
  ⟨⟨rfl, rfl⟩, rfl, rfl, .timeout _, by decide, rfl, rfl⟩

/-- SEND_COMMAND nacked, and GET_VERSION on the same stream. -/
theorem witness_VersionAndChipIdGoThroughSendCommand_nacked :
    ∃ t u r, exec (.sendCommand 0x01) (session true (bytesIn [0x1F])) = .next t ∧
      t.delivered = (session true (bytesIn [0x1F])).delivered ++ [r] ∧
      exec .getVersion (session true (bytesIn [0x1F])) = .next u ∧ r ≠ .ok .unit :=
  ⟨_, _, .err (.nacked (.byte 0x1F)), rfl, rfl, rfl, by decide⟩

/-- SEND_COMMAND acknowledged, and GET_CHIP_ID on the same stream. -/
theorem witness_VersionAndChipIdGoThroughSendCommand_acknowledged :
    ∃ t u r, exec (.sendCommand 0x02) (session true (bytesIn [0x79, 0x01, 0x04, 0x30, 0x79])) = .next t ∧
      t.delivered = (session true (bytesIn [0x79, 0x01, 0x04, 0x30, 0x79])).delivered ++ [r] ∧
      exec .getChipId (session true (bytesIn [0x79, 0x01, 0x04, 0x30, 0x79])) = .next u ∧ r = .ok .unit :=
  ⟨_, _, .ok .unit, rfl, rfl, rfl, rfl⟩

/-- S7. -/
theorem witness_RepeatedQueriesAnswerAlike_version :
    let s := answering [.completes, .completes]
      (session true (bytesIn ([0x79, 0x01, 0xAA] ++ [0x00] ++ [0x79] ++ [0x79, 0x01, 0xAA] ++ [0x00] ++ [0x79]) ++ []))
    Ready s ∧ s.synchronized = true ∧ (∀ w ∈ s.transport.writeAnswers, w = .completes) ∧
    ([0x00] : List Byte).length = (0x01 : Byte).toNat ∧
    s.transport.incoming = bytesIn ([0x79, 0x01, 0xAA] ++ [0x00] ++ [0x79] ++ [0x79, 0x01, 0xAA] ++ [0x00] ++ [0x79]) ++ [] :=
  ⟨⟨rfl, rfl⟩, rfl, by decide, rfl, rfl⟩

theorem witness_RepeatedQueriesAnswerAlike_chip_id :
    let s := session true (bytesIn [0x79, 0x01, 0x04, 0x30, 0x79, 0x79, 0x01, 0x04, 0x30, 0x79] ++ [])
    Ready s ∧ s.synchronized = true ∧ (∀ w ∈ s.transport.writeAnswers, w = .completes) ∧
    s.transport.incoming = bytesIn [0x79, 0x01, 0x04, 0x30, 0x79, 0x79, 0x01, 0x04, 0x30, 0x79] ++ [] :=
  ⟨⟨rfl, rfl⟩, rfl, by decide, rfl⟩

/-! ### Witnesses: READ_MEMORY, one for each clause -/

/-- M7, `length = 1`; ReadMemoryBlindToMode too. -/
theorem witness_ReadMemoryReturnsAllOrNothing_whole :
    let s := session false (bytesIn [0xAA] ++ bytesIn [0xBB])
    Ready s ∧ WriteCompletes s ∧ (1 : Half) ≠ 0 ∧ ([0xAA] : List Byte).length = (1 : Half).toNat ∧
    s.transport.incoming = bytesIn [0xAA] ++ bytesIn [0xBB] :=
  ⟨⟨rfl, rfl⟩, rfl, by decide, rfl, rfl⟩

/-- The longest read, `length = 65535`. -/
theorem witness_ReadMemoryReturnsAllOrNothing_longest :
    let d : List Byte := List.replicate 65535 0xAA
    let s := session true (bytesIn d ++ [])
    Ready s ∧ WriteCompletes s ∧ (0xFFFF : Half) ≠ 0 ∧ d.length = (0xFFFF : Half).toNat ∧
    s.transport.incoming = bytesIn d ++ [] :=
  ⟨⟨rfl, rfl⟩, rfl, by decide, List.length_replicate, rfl⟩

/-- M5, `length = 0`. -/
theorem witness_ReadMemoryReturnsAllOrNothing_nothing_asked :
    Ready (session false (bytesIn [0x79])) ∧ WriteCompletes (session false (bytesIn [0x79])) ∧ (0 : Half) = 0 := by decide

/-- M8, one byte short; and no byte of one. -/
theorem witness_ReadMemoryReturnsAllOrNothing_short :
    let s := session false (bytesIn [0xAA] ++ [])
    Ready s ∧ WriteCompletes s ∧ ([0xAA] : List Byte).length < (2 : Half).toNat ∧ ([] : List Byte).length < (1 : Half).toNat ∧
    Stops [] [] ∧ s.transport.incoming = bytesIn [0xAA] ++ [] :=
  ⟨⟨rfl, rfl⟩, rfl, by decide, by decide, .silence, rfl⟩

theorem witness_ReadMemoryReturnsAllOrNothing_failure :
    let s := session false (bytesIn [0xAA] ++ .failure :: bytesIn [0xBB])
    Ready s ∧ WriteCompletes s ∧ ([0xAA] : List Byte).length < (2 : Half).toNat ∧
    s.transport.incoming = bytesIn [0xAA] ++ .failure :: bytesIn [0xBB] :=
  ⟨⟨rfl, rfl⟩, rfl, by decide, rfl⟩

theorem witness_ReadMemoryReturnsAllOrNothing_write :
    Ready (answering [.fails 5] (session false [])) ∧
    nextWriteAnswer (answering [.fails 5] (session false [])) = .fails 5 ∧
    nextWriteAnswer (answering [.fails 0] (session false [])) = .fails 0 := by decide

/-! ### Witnesses: every operation

The statements whose only hypothesis is that an operation, or a step, answers a next state (with the one result it delivers):
OutcomesAreThoseOfTheTable, ErrorKindNamesItsCause, TransportErrorEndsTheOperation, OnlyEnterSetsAndNothingClearsTheFlag,
OperationsLeaveTheRestUnchanged, FrameWrittenBeforeAnyRead, PhasesFollowTheTable, GetVersionCallCounts, DurationIsBounded,
StartUpOrderDecidesRefusal. One witness for each outcome. -/

theorem witness_operation_ok :
    ∃ t, exec .getVersion (session true (bytesIn [0x79, 0x01, 0xAA, 0x00, 0x79])) = .next t ∧
      t.delivered = [] ++ [.ok (.u8 0xAA)] := ⟨_, rfl, rfl⟩

theorem witness_operation_no_response :
    ∃ t, exec .enter (session false (bytesIn [0x00])) = .next t ∧ t.delivered = [] ++ [.err .noResponse] := ⟨_, rfl, rfl⟩

theorem witness_operation_nacked :
    ∃ t, exec .getChipId (session true []) = .next t ∧ t.delivered = [] ++ [.err (.nacked .timeout)] := ⟨_, rfl, rfl⟩

theorem witness_operation_short_read :
    ∃ t, exec (.readMemory 0xFF 2) (session false (bytesIn [0xAA])) = .next t ∧
      t.delivered = [] ++ [.err .shortRead] := ⟨_, rfl, rfl⟩

theorem witness_operation_transport_error :
    ∃ t, exec (.sendCommand 0x11) (answering [.fails 1] (session true [])) = .next t ∧
      t.delivered = [] ++ [.err .transportError] := ⟨_, rfl, rfl⟩

theorem witness_operation_refused :
    ∃ t, exec .getVersion State.reset = .next t ∧ t.delivered = [] ++ [.err .refused] := ⟨_, rfl, rfl⟩

/-- PhasesFollowTheTable where a wholly read acknowledge byte other than 0x79 ends the operation (V6). -/
theorem witness_PhasesFollowTheTable_nacked :
    ∃ t, exec .getVersion (session true (bytesIn [0x1F, 0x01])) = .next t ∧
      t.delivered = [] ++ [.err (.nacked (.byte 0x1F))] ∧
      t.transport.calls = [] ++ [wrote [0x01, 0xFE], readAll .rxAck [0x1F]] := ⟨_, rfl, rfl, rfl⟩

/-- OutcomesAreThoseOfTheTable, its second part, at its boundary: READ_MEMORY of one byte may be short. -/
theorem witness_OutcomesAreThoseOfTheTable :
    Status.shortRead ∈ allowedStatus (.readMemory 0 1) ∧
    (∀ a, Instr.readMemory 0 1 = .readMemory a 0 → Status.shortRead ≠ .shortRead) ∧
    Status.ok ∈ allowedStatus (.readMemory 0 0) :=
  ⟨by decide, fun _ h => by simp at h, by decide⟩

theorem witness_OnlyEnterSetsAndNothingClearsTheFlag :
    ∃ t, step (asked [⟨0, 0, 0, 0⟩] (session true (bytesIn [0x1F]))) = .next t ∧
      (asked [⟨0, 0, 0, 0⟩] (session true (bytesIn [0x1F]))).synchronized = true := ⟨_, rfl, rfl⟩

/-- EveryOperationCompletes, ReadMemoryBlindToMode and AtomicStepEqualsMicroSteps ask only for readiness. -/
theorem witness_Ready : Ready State.reset ∧ Ready (session true (bytesIn [0x79])) := by decide

/-- Closed, and busy. -/
theorem witness_NoOperationWhileClosedOrBusy :
    (close State.reset).transport.isOpen = false ∧
    (goto .lenV State.reset).transport.isOpen = true ∧ (goto .lenV State.reset).activity ≠ .idle ∧
    faultOf (step (close State.reset)) = some .transportClosed ∧
    refusalOf (exec .enter (goto .lenV State.reset)) = some .busy := by decide

/-- Two states that differ in history, settings and requests. -/
theorem witness_OnlyTheFlagCarriesOver :
    let s := session true (bytesIn [0x79])
    let s' := asked [⟨3, 0, 0, 0⟩] (called [wrote [0x7F]] (session true (bytesIn [0x79])))
    s ≠ s' ∧ s.synchronized = s'.synchronized ∧ s.transport.incoming = s'.transport.incoming ∧
    s.transport.writeAnswers = s'.transport.writeAnswers ∧
    ∃ t t', exec (.sendCommand 0x80) s = .next t ∧ exec (.sendCommand 0x80) s' = .next t' :=
  ⟨by decide, rfl, rfl, rfl, _, _, rfl, rfl⟩

/-! ### Witnesses: the sequencer and the machine -/

theorem witness_MicroStepMakesOneCall :
    (goto (.bodyV 2 0x10) (session true (bytesIn [0, 0, 0x79]))).activity ≠ .idle ∧
    (microStep (goto (.bodyV 2 0x10) (session true (bytesIn [0, 0, 0x79])))).activity = .tail (.u8 0x10) ∧
    (microStep (goto (.tail (.u8 0x10)) (session true (bytesIn [0x79])))).activity = .idle := by decide

theorem witness_EveryOperationTerminates : 6 ≤ 6 ∧
    (finish (begin .getVersion (session true (bytesIn [0x79, 0x01, 0xAA, 0x00, 0x79])))).activity = .idle := by decide

theorem witness_StepRunsTheDecodedRequest_issued :
    let s := asked [⟨4, 0, 0x20000000, 1⟩, ⟨0, 0, 0, 0⟩] (session false (bytesIn [0xAA]))
    Ready s ∧ s.requests = Request.mk 4 0 0x20000000 1 :: [⟨0, 0, 0, 0⟩] ∧
    decode ⟨4, 0, 0x20000000, 1⟩ = .ok (.readMemory 0x20000000 1) := by decide

theorem witness_StepRunsTheDecodedRequest_waiting : Ready State.reset ∧ State.reset.requests = [] := by decide

theorem witness_StepRunsTheDecodedRequest_running :
    (goto (.raw 2) State.reset).transport.isOpen = true ∧ (goto (.raw 2) State.reset).activity ≠ .idle := by decide

theorem witness_StepRunsTheDecodedRequest_word :
    Ready State.reset ∧ decodeTableWord 40 0x1100000000 = some (.readMemory 0 0) := by decide

/-- StepKeepsConfigurationAndHistory and ReceiveStreamConsumedOnce. -/
theorem witness_step_next :
    ∃ t, step (asked [⟨2, 0, 0, 0⟩] (session true (bytesIn [0x79, 0x01]))) = .next t ∧
      t.delivered = [.err .shortRead] := ⟨_, rfl, rfl⟩

/-- The state after a handshake meets the invariant. -/
theorem invariant_after_handshake (rs : List Request) (items : List RxItem) :
    Invariant (asked rs (called handshakeCalls (session true items))) where
  settingsLegal := (by decide : Settings.default.wellFormed = true)
  synchronizedOnlyAfterHandshake := fun _ => List.infix_rfl
  callsLegal := by
    intro c hc
    have hc : c = wrote [Config.SYNC] ∨ c = readAll .rxAck [Config.ACK] := by
      simpa [called, asked, handshakeCalls] using hc
    rcases hc with rfl | rfl
    · exact ⟨rfl, ⟨.enter, rfl⟩, List.prefix_rfl, fun _ => rfl⟩
    · exact ⟨by decide, by decide, rfl⟩
  commandsAfterHandshake := by
    rintro before c later h ⟨o, sent, failed, hc⟩
    have hm : c ∈ handshakeCalls := by
      have : c ∈ before ++ c :: later := by simp
      rwa [← h] at this
    have hm : c = wrote [Config.SYNC] ∨ c = readAll .rxAck [Config.ACK] := by simpa [handshakeCalls] using hm
    rcases hm with rfl | rfl <;> simp [wrote, readAll, commandFrame] at hc
  syncSent := fun h => Activity.noConfusion h
  acceptedInMode := fun _ h => Activity.noConfusion h

/-- From a synchronized state, through a command. -/
theorem witness_StepKeepsTheInvariant :
    Invariant (asked [⟨3, 0, 0, 0⟩] (called handshakeCalls (session true (bytesIn [0x79, 0x01, 0x04, 0x30, 0x79])))) ∧
    ∃ t, step (asked [⟨3, 0, 0, 0⟩] (called handshakeCalls (session true (bytesIn [0x79, 0x01, 0x04, 0x30, 0x79])))) =
      .next t ∧ t.delivered = [.ok (.u16 0x0430)] :=
  ⟨invariant_after_handshake _ _, _, rfl, rfl⟩

theorem witness_ConstructionMeetsTheInvariant :
    (Settings.mk "COM1" 9600 1).wellFormed = true ∧ (Transport.mk true (bytesIn [0x79]) [.fails 0] []).calls = [] := by decide

theorem witness_OutsideActionsKeepTheInvariant : Invariant (called handshakeCalls (session true (bytesIn [0x79]))) :=
  invariant_after_handshake [] _

/-- Each of the three actions, and that they are not the same. -/
theorem witness_OutsideActionsKeepTheInvariant_actions :
    present ⟨0, 0, 0, 0⟩ State.reset ≠ arrive [.byte 0x79] State.reset ∧
    arrive [.byte 0x79] State.reset ≠ close State.reset ∧ close State.reset ≠ State.reset := by decide

theorem witness_StatusCodesAreZeroToFive : Status.refused.code = Status.refused.code := rfl

/-- SameFrameExactlyWhenIndistinguishable: each side holds of distinct operations. -/
theorem witness_SameFrameExactlyWhenIndistinguishable :
    frame (.sendCommand 0x02) = frame .getChipId ∧ tableReading (.sendCommand 0x02) = tableReading .getChipId ∧
    frame (.readMemory 5 0) = frame (.readMemory 5 0xFFFF) := by decide

end Sys2Proof.Tests
end

section
/-! PROOFS. The primitives of 00_scope.md (R10, R11) and what it says of every operation's end (R12, R13). -/

namespace Sys2Proof.Machine

/-! ### One read (R11) -/

/-- A read of `n > 0` bytes where the environment gives the stream `items`. -/
theorem rxRead_incoming (ph : Phase) {n : Nat} (s : State) {items : List RxItem} {t : Taken} (hn : 0 < n)
    (h : takeRx n items = t) :
    rxRead ph n { s with transport := { s.transport with incoming := items } } =
      (if t.failed then .error .transportError else .ok t.bytes,
       afterRead ph n t { s with transport := { s.transport with incoming := items } }) := by
  subst h
  exact rxRead_pos hn

/-- Settles O10: the three ways a read ends are those of `takeRx`. -/
theorem rxReadTakesTheFrontOfTheStream : Obligations.RxReadTakesTheFrontOfTheStream := by
  intro ph n s hn
  exact ⟨_, _, _, rxRead_pos hn, takeRx_cases n s.transport.incoming⟩

/-- Every answer to a read is given by some stream: the bytes alone where they fill the read, else the bytes and a timeout. -/
theorem exists_takeRx_eq {bs : List Byte} {n : Nat} (h : bs.length ≤ n) (rest : List RxItem) :
    ∃ items, takeRx n items = ⟨bs, false, rest⟩ := by
  rcases Nat.lt_or_eq_of_le h with hlt | heq
  · exact ⟨_, takeRx_short hlt (.timeout rest)⟩
  · exact ⟨_, takeRx_full rest heq⟩

/-- Settles O11: the stream that gives the answer is chosen by `exists_takeRx_eq`, or is a failure in front of the rest. -/
theorem environmentMayAnswerAnyRead : Obligations.EnvironmentMayAnswerAnyRead := by
  intro ph n s rest hn
  constructor
  · intro bs hbs
    obtain ⟨items, h⟩ := exists_takeRx_eq hbs rest
    exact ⟨items, _, rxRead_incoming ph s hn h, rfl⟩
  · have h : takeRx n (.failure :: rest) = ⟨[], true, rest⟩ := takeRx_failed (bs := []) rest hn
    exact ⟨.failure :: rest, _, rxRead_incoming ph s hn h, rfl⟩

/-! ### One write (R10) -/

/-- A write that fails after `sent.length` bytes leaves `sent` on the wire. -/
theorem txWrite_fails_prefix {ph : Phase} {bs sent : List Byte} {s : State} (hp : sent <+: bs)
    (h : nextWriteAnswer s = .fails sent.length) :
    txWrite ph bs s = (.error .transportError, afterWrite ph bs sent true s) := by
  rw [txWrite_fails h, ← List.prefix_iff_eq_take.mp hp]

/-- Settles O13: by the two answers a write can have; the answer that fails after `sent.length` bytes leaves `sent`. -/
theorem txWriteSendsAllOrAPrefix : Obligations.TxWriteSendsAllOrAPrefix := by
  constructor
  · intro ph bs s
    rcases txWrite_cases ph bs s with ⟨-, e⟩ | ⟨k, -, e⟩
    · exact ⟨bs, false, e, List.prefix_rfl, fun _ => rfl⟩
    · exact ⟨bs.take k, true, e, List.take_prefix k bs, fun h => Bool.noConfusion h⟩
  · intro ph bs sent s hp
    exact ⟨[.fails sent.length], _, txWrite_fails_prefix hp rfl, by simp⟩

/-! ### Where an operation's calls fail (R13, R134) -/

@[simp] theorem failed_wrote (bs : List Byte) : (wrote bs).failed = false := rfl
@[simp] theorem failed_readAll (ph : Phase) (bs : List Byte) : (readAll ph bs).failed = false := rfl

theorem acked_unfailed (i : Instr) : ∀ c ∈ acked i, c.failed = false := by
  simp [acked]

theorem bodyCalls_unfailed (len : Byte) (body : List Byte) : ∀ c ∈ bodyCalls len body, c.failed = false := by
  by_cases h : len = 0#8 <;> simp [bodyCalls, h]

theorem rawCalls_unfailed (n : Half) (d : List Byte) : ∀ c ∈ rawCalls n d, c.failed = false := by
  by_cases h : n = 0#16 <;> simp [rawCalls, h]

/-- A TransportError is the outcome exactly when a call of `cs` failed, and no call but the last one did. -/
structure FailureEnds (cs : List Call) (res : Except ErrKind Value) : Prop where
  iff_failed : res = .error .transportError ↔ ∃ c ∈ cs, c.failed = true
  before : ∀ c ∈ cs.dropLast, c.failed = false

/-- Where no call failed. -/
theorem FailureEnds.of_unfailed {cs : List Call} {res : Except ErrKind Value} (h : ∀ c ∈ cs, c.failed = false)
    (hr : res ≠ .error .transportError) : FailureEnds cs res where
  iff_failed := ⟨fun e => absurd e hr, fun ⟨c, hc, hf⟩ => by simp [h c hc] at hf⟩
  before c hc := h c (List.mem_of_mem_dropLast hc)

/-- Where the last call decides. -/
theorem FailureEnds.of_last {cs : List Call} {c : Call} {k : ErrKind} (h : ∀ d ∈ cs, d.failed = false)
    (hk : k = .transportError ↔ c.failed = true) : FailureEnds (cs ++ [c]) (.error k) where
  iff_failed := by
    have hcs : ¬ ∃ d ∈ cs, d.failed = true := fun ⟨d, hd, hf⟩ => by simp [h d hd] at hf
    simp only [Except.error.injEq, hk, List.mem_append, List.mem_singleton, or_and_right, exists_or, hcs, false_or,
      exists_eq_left]
  before := by simpa using h

/-- A read that ends the operation. -/
theorem FailureEnds.of_stopCall {cs : List Call} {ph : Phase} {n : Nat} {c : Call} {k : ErrKind}
    (h : ∀ d ∈ cs, d.failed = false) (hc : StopCall ph n c k) : FailureEnds (cs ++ [c]) (.error k) :=
  of_last h (by cases hc <;> simp)

/-- In every shape that an operation's calls can have, a failure ends the operation. -/
theorem Trace.failureEnds {i : Instr} {y : Bool} {cs : List Call} {res : Except ErrKind Value} (h : Trace i y cs res) :
    FailureEnds cs res := by
  cases h with
  | refused _ _ => exact .of_unfailed (by simp) (by simp)
  | writeFails _ _ k _ => exact .of_last (cs := []) (by simp) (by simp)
  | enterAck _ => exact .of_unfailed (acked_unfailed _) (by simp)
  | enterNoResponse _ r _ _ => exact .of_unfailed (by simp) (by simp)
  | enterFails _ => exact .of_last (cs := [_]) (by simp) (by simp)
  | nacked _ _ r _ _ => exact .of_unfailed (by simp) (by simp)
  | ackFails _ _ => exact .of_last (cs := [_]) (by simp) (by simp)
  | sendCommandOk o => exact .of_unfailed (acked_unfailed _) (by simp)
  | versionLenStops c k hc => exact .of_stopCall (acked_unfailed _) hc
  | versionValStops len c k hc => exact .of_stopCall (cs := acked _ ++ [readAll .rxLen [len]]) (by simp [acked]) hc
  | versionBodyStops len ver c k _ hc =>
    exact .of_stopCall (cs := acked _ ++ [readAll .rxLen [len], readAll .rxVal [ver]]) (by simp [acked]) hc
  | versionTailStops len ver body c k _ hc =>
    exact .of_stopCall (by simpa [acked, or_imp, forall_and] using bodyCalls_unfailed len body) hc
  | versionOk len ver body trail _ =>
    exact .of_unfailed (by simpa [acked, or_imp, forall_and] using bodyCalls_unfailed len body) (by simp)
  | chipIdLenStops c k hc => exact .of_stopCall (acked_unfailed _) hc
  | chipIdValStops len c k hc => exact .of_stopCall (cs := acked _ ++ [readAll .rxLen [len]]) (by simp [acked]) hc
  | chipIdTailStops len b0 b1 c k hc =>
    exact .of_stopCall (cs := acked _ ++ [readAll .rxLen [len], readAll .rxVal [b0, b1]]) (by simp [acked]) hc
  | chipIdOk len b0 b1 trail => exact .of_unfailed (by simp [acked]) (by simp)
  | rawStops _ a n c k _ hc => exact .of_stopCall (cs := [_]) (by simp) hc
  | rawOk _ a n d _ => exact .of_unfailed (by simpa using rawCalls_unfailed n d) (by simp)

theorem status_resultOf_eq_transportError {res : Except ErrKind Value} :
    (resultOf res).status = .transportError ↔ res = .error .transportError := by
  match res with
  | .ok v => simp [Result.status]
  | .error k => cases k <;> simp [Result.status]

/-- Settles O29: a failure ends the operation (`Trace.failureEnds`), and the calls of an acknowledged ENTER, which alone set the
flag, hold no failed one. -/
theorem transportErrorEndsTheOperation : Obligations.TransportErrorEndsTheOperation := by
  intro i s t h
  obtain ⟨cs, res, -, htr, -, -, -, hdel, -, hcalls, -, hflag, -, -⟩ := exec_trace h
  obtain ⟨hiff, hbefore⟩ := htr.failureEnds
  refine ⟨cs, resultOf res, hcalls, hdel, status_resultOf_eq_transportError.trans hiff, hbefore, fun hst => ?_⟩
  have hne : cs ≠ acked .enter := by
    rintro rfl
    obtain ⟨c, hc, hf⟩ := hiff.mp (status_resultOf_eq_transportError.mp hst)
    simp [acked_unfailed _ c hc] at hf
  simpa [hne] using hflag

/-! ### Every operation ends with one result of its kind (R12) -/

/-- The value of a successful operation is of the operation's kind. -/
theorem Trace.valueFits {i : Instr} {y : Bool} {cs : List Call} {v : Value} (h : Trace i y cs (.ok v)) :
    ValueFits i v := by
  cases h with
  | enterAck => exact rfl
  | sendCommandOk => exact rfl
  | versionOk len ver body trail hb => exact ⟨ver, rfl⟩
  | chipIdOk len b0 b1 trail => exact ⟨assembleChipId b0 b1, rfl⟩
  | rawOk _ a n d hd => exact ⟨d, rfl, hd⟩

theorem resultOf_eq_ok {res : Except ErrKind Value} {v : Value} : resultOf res = .ok v ↔ res = .ok v := by
  cases res <;> simp

/-- Settles O25: a ready state runs the operation, and `exec_trace` says what it delivered. -/
theorem everyOperationCompletes : Obligations.EveryOperationCompletes := by
  intro i s hr
  have h : exec i s = .next (deliver (operationOf i s)) := exec_ready hr
  obtain ⟨cs, res, -, htr, hidle, -, -, hdel, -⟩ := exec_trace h
  refine ⟨_, resultOf res, h, hdel, fun v hv => ?_, hidle⟩
  obtain rfl := resultOf_eq_ok.mp hv
  exact htr.valueFits

end Sys2Proof.Machine
end

section
/-! PROOFS. 10_state.md R24, R25: an operation as one atomic step and as the sequencer's micro-steps. From each position on, the micro-steps do what is left of the operation. -/

namespace Sys2Proof.Machine

/-! ### The two renderings of an operation (R24) -/

theorem andThen_assoc {α β γ : Type} (p : Reply α) (f : α → State → Reply β) (g : β → State → Reply γ) :
    andThen (andThen p f) g = andThen p fun a s => andThen (f a s) g := by
  obtain ⟨k | a, s⟩ := p <;> rfl

/-- A micro-step that makes the call `p`, where the micro-steps after it do the rest `g` of the operation. -/
theorem microSteps_call {α : Type} {a : Activity} {n : Nat} {p : State → Reply α} {f : α → State → State}
    {g : α → State → Reply Value} {s : State} (hstep : microStep (goto a s) = proceed (p (goto a s)) f)
    (hp : p (goto a s) = ((p s).1, goto a (p s).2))
    (hf : ∀ x s', microSteps n (f x (goto a s')) = deliver (g x s')) :
    microSteps (n + 1) (goto a s) = deliver (andThen (p s) g) := by
  rw [microSteps_succ, hstep, hp]
  rcases p s with ⟨k | x, s'⟩
  · exact microSteps_deliver _ n
  · exact hf x s'

/-- From the trailing byte on. -/
theorem microSteps_tail (n : Nat) (v : Value) (s : State) :
    microSteps (n + 1) (goto (.tail v) s) = deliver (andThen (rxByte .rxTail s) fun _ s => (.ok v, s)) :=
  microSteps_call (microStep_tail v s) (rxByte_goto _ _ _) fun _ _ => microSteps_deliver _ n

/-- From the data of READ_MEMORY on: data of size 0 is skipped by the sequencer and reads nothing in the operation. -/
theorem microSteps_data (n : Nat) (length : Half) (s : State) :
    microSteps (n + 1) (if length = 0 then deliver (.ok (.bytes []), s) else goto (.raw length) s) =
      deliver (andThen (rxReadAll .rxRaw (rawSize length) s) fun d s => (.ok (.bytes d), s)) := by
  split
  case isTrue h =>
    subst h
    exact microSteps_deliver _ (n + 1)
  case isFalse =>
    exact microSteps_call (microStep_raw length s) (rxReadAll_goto _ _ _ _) fun _ _ => microSteps_deliver _ n

/-- From ENTER's reply byte on. -/
theorem microSteps_syncAck (n : Nat) (s : State) :
    microSteps (n + 1) (goto .syncAck s) = deliver (andThen (rxRead .rxAck 1 s) fun r s =>
      if isAck r then (.ok .unit, setSynchronized s) else (.error .noResponse, s)) := by
  refine microSteps_call (microStep_syncAck s) (rxRead_goto _ _ _ _) fun r s' => ?_
  cases isAck r <;> exact microSteps_deliver _ n

/-- From the body of GET_VERSION on: a body of size 0 is skipped by the sequencer and reads nothing in the operation. -/
theorem microSteps_body (n : Nat) (len ver : Byte) (s : State) :
    microSteps (n + 2) (if len = 0 then goto (.tail (.u8 ver)) s else goto (.bodyV len ver) s) =
      deliver (andThen (rxReadAll .rxBody (bodySize len) s) fun _ s =>
        andThen (rxByte .rxTail s) fun _ s => (.ok (.u8 ver), s)) := by
  split
  case isTrue h =>
    subst h
    exact microSteps_tail (n + 1) _ s
  case isFalse =>
    exact microSteps_call (microStep_bodyV len ver s) (rxReadAll_goto _ _ _ _) fun _ s' => microSteps_tail n _ s'

/-- From GET_VERSION's length byte on. -/
theorem microSteps_lenV (n : Nat) (s : State) :
    microSteps (n + 4) (goto .lenV s) = deliver (andThen (rxByte .rxLen s) fun len s =>
      andThen (rxByte .rxVal s) fun ver s => andThen (rxReadAll .rxBody (bodySize len) s) fun _ s =>
        andThen (rxByte .rxTail s) fun _ s => (.ok (.u8 ver), s)) :=
  microSteps_call (microStep_lenV s) (rxByte_goto _ _ _) fun len s' =>
    microSteps_call (microStep_valV len s') (rxByte_goto _ _ _) fun ver s'' => microSteps_body n len ver s''

/-- From GET_CHIP_ID's length byte on. -/
theorem microSteps_lenI (n : Nat) (s : State) :
    microSteps (n + 3) (goto .lenI s) = deliver (andThen (rxByte .rxLen s) fun _ s =>
      andThen (rxPair .rxVal s) fun b s =>
        andThen (rxByte .rxTail s) fun _ s => (.ok (.u16 (assembleChipId b.1 b.2)), s)) :=
  microSteps_call (microStep_lenI s) (rxByte_goto _ _ _) fun _ s' =>
    microSteps_call (microStep_valI s') (rxPair_goto _ _ _) fun _ s'' => microSteps_tail n _ s''

@[simp] theorem afterAck_goto (f : Follow) (a : Activity) (s : State) : afterAck f (goto a s) = afterAck f s := by
  cases f <;> rfl

/-- A framed command from its frame on: SEND_COMMAND's steps, then what follows the acknowledge. -/
theorem microSteps_framed {i : Instr} {o : Byte} {f : Follow} {n : Nat} {g : State → Reply Value} {s : State}
    (hs : s.synchronized = true) (hfr : frame i = commandFrame o) (hnext : ∀ s', afterFrame i s' = goto (.cmdAck f) s')
    (hg : ∀ s', microSteps n (afterAck f s') = deliver (g s')) :
    microSteps (n + 2) (goto (.tx i) s) = deliver (andThen (sendCommandOp o s) fun _ s => g s) := by
  simp only [sendCommandOp, hs, Bool.true_eq_false, if_false, andThen_assoc, ← hfr]
  refine microSteps_call (microStep_tx i s) (txWrite_goto _ _ _ _) fun _ s' => ?_
  rw [hnext, goto_goto]
  refine microSteps_call (microStep_cmdAck f s') (rxRead_goto _ _ _ _) fun r s'' => ?_
  cases isAck r with
  | true => simpa using hg s''
  | false => exact microSteps_deliver _ n

/-- Accepting an operation where its precondition holds. -/
theorem begin_accepted {i : Instr} {s : State} (h : requiresSynchronized i = true → s.synchronized = true) :
    begin i s = goto (.tx i) s := by
  cases hr : requiresSynchronized i with
  | true => simp [begin, hr, h hr]
  | false => simp [begin, hr]

/-- Accepting a standard command before the handshake ends it (R139). -/
theorem begin_refused {i : Instr} {s : State} (hi : requiresSynchronized i = true) (hs : s.synchronized = false) :
    begin i s = deliver (.error .refused, s) := by
  simp [begin, hi, hs]

/-- A standard command's steps where its precondition fails. -/
theorem operationOf_refused {i : Instr} {s : State} (hi : requiresSynchronized i = true) (hs : s.synchronized = false) :
    operationOf i s = (.error .refused, s) := by
  cases i with
  | enter => simp [requiresSynchronized] at hi
  | sendCommand o => exact sendCommandOp_refused hs
  | getVersion => simp [operationOf, getVersionOp, sendCommandOp_refused hs]
  | getChipId => simp [operationOf, getChipIdOp, sendCommandOp_refused hs]
  | readMemory a n => simp [requiresSynchronized] at hi

/-- A SEND_COMMAND that succeeds has no value but `unit`. -/
theorem sendCommandOp_andThen_unit (o : Byte) (s : State) :
    (andThen (sendCommandOp o s) fun _ s => (.ok .unit, s)) = sendCommandOp o s := by
  rcases sendCommandOp_cases o s with ⟨-, e⟩ | ⟨-, k, -, e⟩ | ⟨-, -, t, -, ⟨-, -, e⟩ | ⟨-, -, -, e⟩ | ⟨-, -, e⟩⟩ <;>
    rw [e] <;> rfl

/-- The micro-steps of an accepted operation. -/
theorem finish_accepted {i : Instr} {s : State} (h : requiresSynchronized i = true → s.synchronized = true) :
    finish (goto (.tx i) s) = deliver (operationOf i s) := by
  cases i with
  | enter =>
    exact microSteps_call (microStep_tx _ s) (txWrite_goto _ _ _ _) fun _ s' => microSteps_syncAck 4 s'
  | sendCommand o =>
    rw [operationOf, ← sendCommandOp_andThen_unit]
    exact microSteps_framed (f := .nothing) (h rfl) rfl (fun _ => rfl) fun _ => microSteps_deliver _ 4
  | getVersion => exact microSteps_framed (h rfl) rfl (fun _ => rfl) fun s' => microSteps_lenV 0 s'
  | getChipId => exact microSteps_framed (h rfl) rfl (fun _ => rfl) fun s' => microSteps_lenI 1 s'
  | readMemory a n =>
    exact microSteps_call (microStep_tx _ s) (txWrite_goto _ _ _ _) fun _ s' => microSteps_data 4 n s'

/-- Settles O38: an accepted operation's micro-steps do its steps (`finish_accepted`), and a standard command whose precondition fails
ends as Refused in both renderings. -/
theorem atomicStepEqualsMicroSteps : Obligations.AtomicStepEqualsMicroSteps := by
  intro i s hr
  rw [exec_ready hr]
  by_cases h : requiresSynchronized i = true → s.synchronized = true
  · rw [begin_accepted h, finish_accepted h]
  · simp only [Classical.not_imp, Bool.not_eq_true] at h
    obtain ⟨hi, hs⟩ := h
    rw [begin_refused hi hs, operationOf_refused hi hs, finish, microSteps_deliver]

end Sys2Proof.Machine
end

section
/-! PROOFS. 10_state.md: the invariant (R21, R22, R40, R48) holds after construction, and every step keeps it. -/

namespace Sys2Proof.Machine

/-! ### Calls added to a history -/

theorem Handshaken.append {calls : List Call} (h : Handshaken calls) (cs : List Call) : Handshaken (calls ++ cs) :=
  h.trans (List.prefix_append calls cs).isInfix

/-- An acknowledge right after the sync byte completes a handshake. -/
theorem handshaken_of_ack {calls : List Call} (h : [wrote [Config.SYNC]] <:+ calls) :
    Handshaken (calls ++ [readAll .rxAck [Config.ACK]]) := by
  obtain ⟨before, rfl⟩ := h
  exact List.IsSuffix.isInfix ⟨before, by rw [List.append_assoc]; rfl⟩

/-- New calls keep every command frame after a handshake where those of them that write one come after a handshake. -/
theorem CommandsAfterHandshake.append {calls cs : List Call} (h : CommandsAfterHandshake calls)
    (hcs : ∀ c ∈ cs, c.WritesCommand → Handshaken calls) : CommandsAfterHandshake (calls ++ cs) := by
  intro before c later e hc
  rcases List.append_eq_append_iff.mp e with ⟨xs, rfl, rfl⟩ | ⟨xs, hxs, e'⟩
  · exact (hcs c (List.mem_append_right xs List.mem_cons_self) hc).append xs
  · cases xs with
    | nil =>
      obtain rfl : calls = before := by simpa using hxs
      obtain rfl : c :: later = cs := e'
      exact hcs c List.mem_cons_self hc
    | cons d xs =>
      obtain ⟨rfl, -⟩ := List.cons.inj e'
      exact h before c xs hxs hc

/-- Only a standard command transmits a command frame (30_encoding.md R62). -/
theorem requiresSynchronized_of_frame {i : Instr} {o : Byte} (h : frame i = commandFrame o) :
    requiresSynchronized i = true := by
  cases i with
  | enter => simp [commandFrame] at h
  | readMemory a n => simp [commandFrame, addressBytes] at h
  | _ => rfl

theorem not_writesCommand_read (ph : Phase) (n : Nat) (r : List Byte) (f : Bool) :
    ¬ Call.WritesCommand ⟨ph, .read n r f⟩ := by
  rintro ⟨o, sent, failed, h⟩
  simp at h

/-! ### The invariant apart from the sequencer's position

`Invariant (goto .idle s)` is the part of the invariant that speaks of settings, flag and calls: at IDLE the rest asks nothing. -/

/-- Where the settings and the calls are the same, only the flag and the position remain to be looked at. -/
theorem Invariant.transfer {s t : State} (h : Invariant s) (hset : t.settings = s.settings)
    (hcalls : t.transport.calls = s.transport.calls) (hflag : t.synchronized = true → Handshaken s.transport.calls)
    (hsync : t.activity = .syncAck → [wrote [Config.SYNC]] <:+ s.transport.calls)
    (htx : ∀ op, t.activity = .tx op → requiresSynchronized op = true → t.synchronized = true) : Invariant t where
  settingsLegal := hset ▸ h.settingsLegal
  synchronizedOnlyAfterHandshake := hcalls ▸ hflag
  callsLegal := hcalls ▸ h.callsLegal
  commandsAfterHandshake := hcalls ▸ h.commandsAfterHandshake
  syncSent := hcalls ▸ hsync
  acceptedInMode := htx

theorem Invariant.at_idle {s : State} (h : Invariant s) : Invariant (goto .idle s) :=
  h.transfer rfl rfl h.synchronizedOnlyAfterHandshake nofun nofun

theorem Invariant.moved_to {a : Activity} {s : State} (h : Invariant (goto .idle s))
    (hsync : a = .syncAck → [wrote [Config.SYNC]] <:+ s.transport.calls)
    (htx : ∀ op, a = .tx op → requiresSynchronized op = true → s.synchronized = true) : Invariant (goto a s) :=
  h.transfer rfl rfl h.synchronizedOnlyAfterHandshake hsync htx

/-- Delivering a result looks at nothing the invariant speaks of. -/
theorem Invariant.delivered {s : State} (h : Invariant (goto .idle s)) (x : Except ErrKind Value) :
    Invariant (deliver (x, s)) :=
  h.transfer rfl rfl h.synchronizedOnlyAfterHandshake nofun nofun

theorem Invariant.set_synchronized {s : State} (h : Invariant (goto .idle s)) (hh : Handshaken s.transport.calls) :
    Invariant (goto .idle (setSynchronized s)) :=
  h.transfer rfl rfl (fun _ => hh) nofun nofun

/-- The requests still to come are nothing to the invariant. -/
theorem Invariant.with_requests {s : State} (h : Invariant s) (rs : List Request) : Invariant { s with requests := rs } :=
  h.transfer rfl rfl h.synchronizedOnlyAfterHandshake h.syncSent h.acceptedInMode

/-- Calls of legal shape, a command frame among them only while synchronized. -/
theorem Invariant.called {s s' : State} {cs : List Call} (h : Invariant (goto .idle s)) (hm : Moves s s' cs)
    (hy : s'.synchronized = s.synchronized) (hl : ∀ c ∈ cs, c.Legal)
    (hw : ∀ c ∈ cs, c.WritesCommand → s.synchronized = true) : Invariant (goto .idle s') where
  settingsLegal := by
    rw [goto_settings, hm.settings]
    exact h.settingsLegal
  synchronizedOnlyAfterHandshake hs := by
    rw [goto_calls, hm.calls]
    exact (h.synchronizedOnlyAfterHandshake (hy ▸ hs)).append cs
  callsLegal c hc := by
    rw [goto_calls, hm.calls, List.mem_append] at hc
    exact hc.elim (h.callsLegal c) (hl c)
  commandsAfterHandshake := by
    rw [goto_calls, hm.calls]
    exact h.commandsAfterHandshake.append fun c hc hcmd => h.synchronizedOnlyAfterHandshake (hw c hc hcmd)
  syncSent := nofun
  acceptedInMode := nofun

/-! ### The transport calls keep it -/

/-- The write of an operation's frame, accepted in its mode (R22). -/
theorem Invariant.txWrite {s : State} (h : Invariant (goto .idle s)) {op : Instr}
    (hop : requiresSynchronized op = true → s.synchronized = true) :
    Invariant (goto .idle (Machine.txWrite .tx (frame op) s).2) := by
  have hwrite : ∀ sent failed, sent <+: frame op → (failed = false → sent = frame op) →
      Invariant (goto .idle (afterWrite .tx (frame op) sent failed s)) := by
    intro sent failed hp hf
    refine h.called (afterWrite_moves _ _ _ _ _) rfl ?_ ?_ <;> simp only [List.mem_singleton, forall_eq]
    · exact ⟨rfl, ⟨op, rfl⟩, hp, hf⟩
    · rintro ⟨o, _, _, ho⟩
      exact hop (requiresSynchronized_of_frame (Io.write.inj ho).1)
  rcases txWrite_cases .tx (frame op) s with ⟨-, e⟩ | ⟨k, -, e⟩ <;> rw [e]
  · exact hwrite _ _ List.prefix_rfl fun _ => rfl
  · exact hwrite _ _ (List.take_prefix k _) fun hf => Bool.noConfusion hf

/-- A read of a size that its phase asks for. -/
theorem Invariant.rxRead {s : State} (h : Invariant (goto .idle s)) {ph : Phase} {n : Nat}
    (hfit : ∀ r f, r.length ≤ n → 0 < n → Call.Legal ⟨ph, .read n r f⟩) :
    Invariant (goto .idle (Machine.rxRead ph n s).2) := by
  rcases Nat.eq_zero_or_pos n with rfl | hn
  · exact h
  · rw [rxRead_pos hn]
    refine h.called (afterRead_moves ph n s) rfl ?_ ?_ <;> simp only [List.mem_singleton, forall_eq]
    · exact hfit _ _ (takeRx_length_le n _) hn
    · exact fun hc => absurd hc (not_writesCommand_read _ _ _ _)

/-- Judging what a read gave leaves the state alone. -/
theorem andThen_state {α β : Type} (p : Reply α) {f : α → State → Reply β} (hf : ∀ a s, (f a s).2 = s) :
    (andThen p f).2 = p.2 := by
  obtain ⟨k | a, s⟩ := p
  · rfl
  · exact hf a s

theorem rxByte_state (ph : Phase) (s : State) : (rxByte ph s).2 = (rxRead ph 1 s).2 :=
  andThen_state _ fun r _ => by cases r <;> rfl

theorem rxPair_state (ph : Phase) (s : State) : (rxPair ph s).2 = (rxRead ph 2 s).2 :=
  andThen_state _ fun r _ => by match r with | [] => rfl | [_] => rfl | _ :: _ :: _ => rfl

theorem rxReadAll_state (ph : Phase) (n : Nat) (s : State) : (rxReadAll ph n s).2 = (rxRead ph n s).2 :=
  andThen_state _ fun r s => by by_cases h : r.length < n <;> simp [h]

theorem Invariant.rxByte {s : State} (h : Invariant (goto .idle s)) {ph : Phase}
    (hfit : ∀ r f, r.length ≤ 1 → 0 < 1 → Call.Legal ⟨ph, .read 1 r f⟩) :
    Invariant (goto .idle (Machine.rxByte ph s).2) :=
  rxByte_state ph s ▸ h.rxRead hfit

theorem Invariant.rxPair {s : State} (h : Invariant (goto .idle s)) {ph : Phase}
    (hfit : ∀ r f, r.length ≤ 2 → 0 < 2 → Call.Legal ⟨ph, .read 2 r f⟩) :
    Invariant (goto .idle (Machine.rxPair ph s).2) :=
  rxPair_state ph s ▸ h.rxRead hfit

theorem Invariant.rxReadAll {s : State} (h : Invariant (goto .idle s)) {ph : Phase} {n : Nat}
    (hfit : ∀ r f, r.length ≤ n → 0 < n → Call.Legal ⟨ph, .read n r f⟩) :
    Invariant (goto .idle (Machine.rxReadAll ph n s).2) :=
  rxReadAll_state ph n s ▸ h.rxRead hfit

/-! ### The micro-steps keep it -/

/-- After a transport call: the move it leads to, or its error delivered. -/
theorem Invariant.proceed {α : Type} {p : Reply α} (h : Invariant (goto .idle p.2)) {f : α → State → State}
    (hf : ∀ a s', Invariant (goto .idle s') → Invariant (f a s')) : Invariant (Machine.proceed p f) := by
  obtain ⟨k | a, s'⟩ := p
  · exact h.delivered _
  · exact hf a s' h

/-- Moving to a position past the first reply byte. -/
theorem Invariant.moved_past {a : Activity} {s : State} (h : Invariant (goto .idle s)) (hsync : a ≠ .syncAck)
    (htx : ∀ op, a ≠ .tx op) : Invariant (goto a s) :=
  h.moved_to (fun e => absurd e hsync) fun op e => absurd e (htx op)

theorem Invariant.afterFrame {op : Instr} {s : State} (h : Invariant (goto .idle s))
    (hs : [wrote (frame op)] <:+ s.transport.calls) : Invariant (Machine.afterFrame op s) := by
  cases op with
  | enter => exact h.moved_to (fun _ => hs) (by simp)
  | readMemory a n =>
    simp only [Machine.afterFrame]
    split
    · exact h.delivered _
    · exact h.moved_past nofun nofun
  | _ => exact h.moved_past nofun nofun

theorem Invariant.afterAck {s : State} (h : Invariant (goto .idle s)) (f : Follow) : Invariant (Machine.afterAck f s) := by
  cases f with
  | nothing => exact h.delivered _
  | _ => exact h.moved_past nofun nofun

/-- The micro-step that writes a frame. -/
theorem microStep_tx_keeps_invariant {op : Instr} {s : State} (h : Invariant s) (ha : s.activity = .tx op) :
    Invariant (proceed (txWrite .tx (frame op) s) fun _ s => afterFrame op s) := by
  have hcalled := h.at_idle.txWrite (h.acceptedInMode op ha)
  rcases txWrite_cases .tx (frame op) s with ⟨-, e⟩ | ⟨k, -, e⟩ <;> rw [e] at hcalled ⊢
  · exact hcalled.afterFrame ⟨s.transport.calls, rfl⟩
  · exact hcalled.delivered _

/-- The micro-step that reads ENTER's reply byte: the byte 0x79 completes the handshake that the sync byte began. -/
theorem microStep_syncAck_keeps_invariant {s : State} (h : Invariant s) (ha : s.activity = .syncAck) :
    Invariant (proceed (rxRead .rxAck 1 s) fun r s =>
      if isAck r then deliver (.ok .unit, setSynchronized s) else deliver (.error .noResponse, s)) := by
  have hcalled : Invariant (goto .idle (rxRead .rxAck 1 s).2) := h.at_idle.rxRead fun _ _ hl hn => ⟨hl, hn, rfl⟩
  rcases rxRead_one_cases .rxAck s with ⟨b, rest, -, e⟩ | ⟨rest, -, e⟩ | ⟨rest, -, e⟩ <;> rw [e] at hcalled ⊢
  · rw [proceed_ok]
    split
    case isTrue hb =>
      have hh := handshaken_of_ack (h.syncSent ha)
      rw [isAck_single, decide_eq_true_eq] at hb
      subst hb
      exact (hcalled.set_synchronized hh).at_idle.delivered _
    case isFalse => exact hcalled.delivered _
  · exact hcalled.delivered _
  · exact hcalled.delivered _

/-- Every micro-step keeps the invariant. -/
theorem microStep_keeps_invariant {s : State} (h : Invariant s) : Invariant (microStep s) := by
  unfold microStep
  cases ha : s.activity with
  | idle => exact h
  | tx op => exact microStep_tx_keeps_invariant h ha
  | syncAck => exact microStep_syncAck_keeps_invariant h ha
  | cmdAck f =>
    refine Invariant.proceed (h.at_idle.rxRead fun _ _ hl hn => ⟨hl, hn, rfl⟩) fun r s' h' => ?_
    split
    · exact h'.afterAck f
    · exact h'.delivered _
  | lenV => exact (h.at_idle.rxByte fun _ _ hl hn => ⟨hl, hn, rfl⟩).proceed fun _ _ h' => h'.moved_past nofun nofun
  | lenI => exact (h.at_idle.rxByte fun _ _ hl hn => ⟨hl, hn, rfl⟩).proceed fun _ _ h' => h'.moved_past nofun nofun
  | valV len =>
    refine (h.at_idle.rxByte fun _ _ hl hn => ⟨hl, hn, Nat.le_succ 1⟩).proceed fun ver s' h' => ?_
    split <;> exact h'.moved_past nofun nofun
  | valI =>
    exact (h.at_idle.rxPair fun _ _ hl hn => ⟨hl, hn, Nat.le_refl 2⟩).proceed fun _ _ h' => h'.moved_past nofun nofun
  | bodyV len ver =>
    have hsize : bodySize len ≤ 255 := Nat.le_of_lt_succ len.isLt
    exact (h.at_idle.rxReadAll fun _ _ hl hn => ⟨hl, hn, hsize⟩).proceed fun _ _ h' => h'.moved_past nofun nofun
  | tail value => exact (h.at_idle.rxByte fun _ _ hl hn => ⟨hl, hn, rfl⟩).proceed fun _ _ h' => h'.delivered _
  | raw n =>
    have hsize : rawSize n ≤ 65535 := Nat.le_of_lt_succ n.isLt
    exact (h.at_idle.rxReadAll fun _ _ hl hn => ⟨hl, hn, hsize⟩).proceed fun _ _ h' => h'.delivered _

theorem microSteps_keep_invariant (n : Nat) {s : State} (h : Invariant s) : Invariant (microSteps n s) := by
  induction n generalizing s with
  | zero => exact h
  | succ n ih => exact ih (microStep_keeps_invariant h)

/-- Accepting an operation keeps the invariant. -/
theorem begin_keeps_invariant {i : Instr} {s : State} (h : Invariant s) : Invariant (begin i s) := by
  unfold begin
  split
  case isTrue => exact h.at_idle.delivered _
  case isFalse hb =>
    refine h.at_idle.moved_to (by simp) fun op e hop => ?_
    obtain rfl := Activity.tx.inj e
    simpa [hop] using hb

/-- Every operation keeps the invariant, as its micro-steps do (`atomicStepEqualsMicroSteps`). -/
theorem exec_keeps_invariant {i : Instr} {s t : State} (h : Invariant s) (he : exec i s = .next t) : Invariant t := by
  rw [atomicStepEqualsMicroSteps i s (exec_next he).1] at he
  cases he
  exact microSteps_keep_invariant 6 (begin_keeps_invariant h)

/-- Settles O45: by the three things a step can be (`step_next_cases`); an operation, too, is a run of micro-steps. -/
theorem stepKeepsTheInvariant : Obligations.StepKeepsTheInvariant := by
  intro s t h hstep
  obtain ⟨-, ⟨r, rest, i, -, -, -, he⟩ | ⟨-, -, rfl⟩ | ⟨-, rfl⟩⟩ := step_next_cases hstep
  · exact exec_keeps_invariant (h.with_requests rest) he
  · exact h
  · exact microSteps_keep_invariant 6 h

/-- Settles O46: with the flag false, no call made and the sequencer IDLE only the settings are left to ask about. -/
theorem constructionMeetsTheInvariant : Obligations.ConstructionMeetsTheInvariant := by
  have hconstruct : ∀ (c : Settings) (x : Transport), c.wellFormed = true → x.calls = [] →
      Invariant (State.construct c x) := by
    intro c x hc hx
    have hcalls : (State.construct c x).transport.calls = [] := hx
    exact {
      settingsLegal := hc
      synchronizedOnlyAfterHandshake := nofun
      callsLegal := by simp [hcalls]
      commandsAfterHandshake := by simp [hcalls, CommandsAfterHandshake]
      syncSent := nofun
      acceptedInMode := nofun }
  exact ⟨hconstruct, hconstruct _ _ rfl rfl⟩

end Sys2Proof.Machine
end

section
/-! PROOFS. 10_state.md: what an operation changes and leaves unchanged (R21, R25, R28, R31), and what the sequencer and a step of the machine do (R29, R33, R35, R53). -/

namespace Sys2Proof.Machine

/-! ### The host port and the step (R29, R33, R35, R53) -/

/-- Settles O3: operation by operation. -/
theorem portEncodeThenDecode : Obligations.PortEncodeThenDecode := by
  intro i
  cases i <;> exact ⟨rfl, rfl⟩

theorem step_closed {s : State} (h : s.transport.isOpen = false) : step s = .fault .transportClosed := by
  simp [step, fetch, h]

/-- Settles O26: `issue` and `fetch` look at the transport first and at the sequencer next. -/
theorem noOperationWhileClosedOrBusy : Obligations.NoOperationWhileClosedOrBusy := by
  intro i s
  refine ⟨fun hc => ⟨?_, step_closed hc⟩, fun ho ha => ?_⟩ <;> rw [exec_eq_issue]
  · simp [issue, hc]
  · simp [issue, ho, ha]

theorem step_waiting {s : State} (hr : Ready s) (hq : s.requests = []) : step s = .next s := by
  simp [step, fetch, hr.1, hr.2, hq]

theorem step_issued {s : State} {r : Request} {rest : List Request} {i : Instr} (hr : Ready s)
    (hq : s.requests = r :: rest) (hd : decode r = .ok i) : step s = exec i { s with requests := rest } := by
  simp [step, fetch, hr.1, hr.2, hq, hd]

theorem step_running {s : State} (ho : s.transport.isOpen = true) (ha : s.activity ≠ .idle) :
    step s = .next (finish s) := by
  simp [step, fetch, ho, ha]

/-- A table word that reads as an operation places the request of that operation. -/
theorem requestOfTableWord_of_reading {nbits w : Nat} {i : Instr} (h : decodeTableWord nbits w = some i) :
    requestOfTableWord nbits w = encode i := by
  simp [requestOfTableWord, h]

/-- Settles O41: one lemma for each of the things a step can find; a table word's request is the operation's own, which decodes
to it (`portEncodeThenDecode`). -/
theorem stepRunsTheDecodedRequest : Obligations.StepRunsTheDecodedRequest := by
  refine ⟨fun s r rest i hr hq hd => step_issued hr hq hd, fun s hr hq => step_waiting hr hq,
    fun s ho ha => step_running ho ha, fun s nbits w i hr hw => ?_⟩
  rw [State.withFetchWord, placeTableWord_of_ready s nbits w hr, requestOfTableWord_of_reading hw]
  exact step_issued hr rfl (portEncodeThenDecode i).2

/-- Settles O42: each field as `State.construct` gives it; reset is Ready with no request. -/
theorem constructionIsReset : Obligations.ConstructionIsReset :=
  ⟨fun _ _ => ⟨rfl, rfl, rfl, rfl, rfl, rfl, rfl⟩, ⟨_, _, rfl, rfl, rfl, rfl, rfl⟩, step_waiting ⟨rfl, rfl⟩ rfl⟩

/-! ### The micro-steps (R24, R25) -/

/-- Settles O39: a position that is not IDLE makes its one call and goes on or delivers (`microStep_moves`); IDLE makes none. -/
theorem microStepMakesOneCall : Obligations.MicroStepMakesOneCall := by
  intro s
  by_cases ha : s.activity = .idle
  · rw [microStep_idle ha]
    exact ⟨[], by simp, by simp, by simp, fun h => absurd ha h⟩
  · obtain ⟨cs, hl, hp, hm⟩ := microStep_moves ha
    refine ⟨cs, hm.calls, hl, hp, fun _ => ?_⟩
    rcases hm.ends with ⟨hbusy, hdel⟩ | ⟨hidle, hdel⟩
    · simp [hbusy, hdel]
    · exact iff_of_true hidle hdel

/-- At most how many transport calls are still to be made from a position (70_reset_and_hazards.md R174). -/
def Activity.callsLeft : Activity → Nat
  | .idle => 0
  | .tx _ => 6
  | .syncAck => 1
  | .cmdAck _ => 5
  | .lenV => 4
  | .lenI => 3
  | .valV _ => 3
  | .valI => 2
  | .bodyV _ _ => 2
  | .tail _ => 1
  | .raw _ => 1

theorem Activity.callsLeft_le_six (a : Activity) : a.callsLeft ≤ 6 := by
  cases a <;> simp [Activity.callsLeft]

theorem Activity.callsLeft_eq_zero {a : Activity} (h : a.callsLeft = 0) : a = .idle := by
  cases a with
  | idle => rfl
  | _ => simp [Activity.callsLeft] at h

/-- An error ends the operation, so only the move after a call that succeeded is to be looked at. -/
theorem proceed_callsLeft {α : Type} {p : Reply α} {f : α → State → State} {n : Nat}
    (hf : ∀ a s, (f a s).activity.callsLeft ≤ n) : (proceed p f).activity.callsLeft ≤ n := by
  obtain ⟨k | a, s⟩ := p
  · exact Nat.zero_le n
  · exact hf a s

theorem afterFrame_callsLeft (op : Instr) (s : State) : (afterFrame op s).activity.callsLeft ≤ 5 := by
  cases op with
  | readMemory a n =>
    simp only [afterFrame]
    split <;> simp [Activity.callsLeft]
  | _ => simp [afterFrame, Activity.callsLeft]

theorem afterAck_callsLeft (f : Follow) (s : State) : (afterAck f s).activity.callsLeft ≤ 4 := by
  cases f <;> simp [afterAck, Activity.callsLeft]

/-- A micro-step from a position with at most `n + 1` calls to make leaves at most `n`. -/
theorem microStep_callsLeft {s : State} {n : Nat} (h : s.activity.callsLeft ≤ n + 1) :
    (microStep s).activity.callsLeft ≤ n := by
  refine Nat.le_trans ?_ (Nat.sub_le_of_le_add h)
  unfold microStep
  cases ha : s.activity with
  | idle => simp [ha, Activity.callsLeft]
  | tx op => exact proceed_callsLeft fun _ s' => afterFrame_callsLeft op s'
  | cmdAck f =>
    refine proceed_callsLeft fun r s' => ?_
    split
    · exact afterAck_callsLeft f s'
    · exact Nat.zero_le _
  | syncAck => exact proceed_callsLeft fun _ s' => by split <;> exact Nat.zero_le _
  | valV len =>
    refine proceed_callsLeft fun _ s' => ?_
    split
    · exact Nat.le_succ 1
    · exact Nat.le_refl 2
  | _ => exact proceed_callsLeft fun _ s' => Nat.le_refl _

/-- As many micro-steps as there are calls left reach IDLE. -/
theorem microSteps_reach_idle {s : State} {n : Nat} (h : s.activity.callsLeft ≤ n) :
    (microSteps n s).activity = .idle := by
  induction n generalizing s with
  | zero => exact Activity.callsLeft_eq_zero (Nat.le_zero.mp h)
  | succ n ih => exact ih (microStep_callsLeft h)

theorem finish_idle (s : State) : (finish s).activity = .idle :=
  microSteps_reach_idle s.activity.callsLeft_le_six

/-- `t` may come after `s` by any of the block's own moves: configuration, requests and the transport's being open are as they
were, results and calls are only added, and the flag is not cleared. -/
structure Later (s t : State) : Prop where
  settings : t.settings = s.settings
  requests : t.requests = s.requests
  isOpen : t.transport.isOpen = s.transport.isOpen
  delivered : s.delivered <+: t.delivered
  calls : s.transport.calls <+: t.transport.calls
  flagKept : s.synchronized = true → t.synchronized = true

theorem Later.refl (s : State) : Later s s := ⟨rfl, rfl, rfl, List.prefix_rfl, List.prefix_rfl, id⟩

theorem Later.trans {s t u : State} (h : Later s t) (k : Later t u) : Later s u :=
  ⟨k.settings.trans h.settings, k.requests.trans h.requests, k.isOpen.trans h.isOpen, h.delivered.trans k.delivered,
    h.calls.trans k.calls, fun hs => k.flagKept (h.flagKept hs)⟩

theorem SeqMoves.later {s t : State} {cs : List Call} (h : SeqMoves s t cs) : Later s t where
  settings := h.settings
  requests := h.requests
  isOpen := h.isOpen
  delivered := by
    rcases h.ends with ⟨-, hdel⟩ | ⟨-, r, hdel⟩ <;> simp [hdel]
  calls := ⟨cs, h.calls.symm⟩
  flagKept := h.flagKept

theorem microStep_later (s : State) : Later s (microStep s) := by
  by_cases ha : s.activity = .idle
  · rw [microStep_idle ha]
    exact Later.refl s
  · obtain ⟨cs, -, -, hm⟩ := microStep_moves ha
    exact hm.later

theorem microSteps_later (n : Nat) (s : State) : Later s (microSteps n s) := by
  induction n generalizing s with
  | zero => exact Later.refl s
  | succ n ih => exact (microStep_later s).trans (ih _)

/-! ### The frame of an operation and of a step (R21, R28, R31, R53) -/

theorem exec_later {i : Instr} {s t : State} (h : exec i s = .next t) : Later s t := by
  obtain ⟨cs, res, -, -, -, hset, hreq, hdel, hopen, hcalls, -, hflag, -, -⟩ := exec_trace h
  exact ⟨hset, hreq, hopen, ⟨_, hdel.symm⟩, ⟨_, hcalls.symm⟩, fun hs => by simp [hflag, hs]⟩

/-- Settles O31: what `exec_trace` says, field by field. -/
theorem operationsLeaveTheRestUnchanged : Obligations.OperationsLeaveTheRestUnchanged := by
  intro i s t h
  obtain ⟨cs, res, ⟨-, hs⟩, -, hidle, hset, hreq, hdel, hopen, hcalls, -, hflag, hans, hquiet⟩ := exec_trace h
  refine ⟨hset, hreq, hopen, hidle.trans hs.symm, hidle, fun hne => by simpa [hne] using hflag, ⟨_, hdel⟩, cs, hcalls,
    fun hc => ?_, fun hc => by simpa [hc] using hans⟩
  rw [hquiet hc]
  exact ⟨rfl, rfl⟩

theorem step_flagKept {s t : State} (h : step s = .next t) (hs : s.synchronized = true) : t.synchronized = true := by
  obtain ⟨-, ⟨r, rest, i, -, -, -, he⟩ | ⟨-, -, rfl⟩ | ⟨-, rfl⟩⟩ := step_next_cases h
  · exact (exec_later he).flagKept hs
  · exact hs
  · exact (microSteps_later 6 s).flagKept hs

/-- Settles O30: an operation sets the flag by the two calls of an acknowledged ENTER only (`exec_trace`), and a step clears it
neither by an operation nor by the micro-steps of one in progress. -/
theorem onlyEnterSetsAndNothingClearsTheFlag : Obligations.OnlyEnterSetsAndNothingClearsTheFlag := by
  refine ⟨fun i s t h => ?_, fun s t => step_flagKept, fun _ _ => rfl⟩
  obtain ⟨cs, res, -, -, -, -, -, -, -, hcalls, -, hflag, -, -⟩ := exec_trace h
  have hacked : acked .enter = [wrote [0x7F], readAll .rxAck [0x79]] := rfl
  simp [hflag, hcalls, hacked]

/-- Settles O43: by the three things a step can be; the request of an operation is taken off the front. -/
theorem stepKeepsConfigurationAndHistory : Obligations.StepKeepsConfigurationAndHistory := by
  intro s t h
  obtain ⟨ho, ⟨r, rest, i, -, hq, -, he⟩ | ⟨ha, -, rfl⟩ | ⟨-, rfl⟩⟩ := step_next_cases h
  · have hl := exec_later he
    obtain ⟨-, -, -, -, hidle, -⟩ := exec_trace he
    refine ⟨hl.settings, ?_, ?_, hl.delivered, hl.calls, hl.isOpen.trans ho, hidle⟩ <;> rw [hl.requests, hq]
    · exact List.suffix_cons r rest
    · exact Nat.le_refl _
  · exact ⟨rfl, List.suffix_rfl, Nat.le_succ _, List.prefix_rfl, List.prefix_rfl, ho, ha⟩
  · have hl : Later s (finish s) := microSteps_later 6 s
    exact ⟨hl.settings, hl.requests ▸ List.suffix_rfl, hl.requests ▸ Nat.le_succ _, hl.delivered, hl.calls,
      hl.isOpen.trans ho, finish_idle s⟩

end Sys2Proof.Machine
end

section
/-! PROOFS. 10_state.md R25: the calls of an operation follow its row of the table and stop at the first error, by cases on the shapes of Trace. -/

namespace Sys2Proof.Machine

/-! ### A call's entry in the table, and the calls after which an operation goes on -/

/-- A call's phase and size. -/
def Call.entry (c : Call) : Phase × Nat := (c.phase, c.size)

@[simp] theorem entry_write (ph : Phase) (bs sent : List Byte) (f : Bool) :
    Call.entry ⟨ph, .write bs sent f⟩ = (ph, bs.length) := rfl
@[simp] theorem entry_read (ph : Phase) (n : Nat) (r : List Byte) (f : Bool) : Call.entry ⟨ph, .read n r f⟩ = (ph, n) := rfl
@[simp] theorem entry_wrote (bs : List Byte) : (wrote bs).entry = (.tx, bs.length) := rfl
@[simp] theorem entry_readAll (ph : Phase) (bs : List Byte) : (readAll ph bs).entry = (ph, bs.length) := rfl

theorem StopCall.entry {ph : Phase} {n : Nat} {c : Call} {k : ErrKind} (h : StopCall ph n c k) : c.entry = (ph, n) := by
  cases h <;> rfl

theorem StopCall.phase_eq {ph : Phase} {n : Nat} {c : Call} {k : ErrKind} (h : StopCall ph n c k) : c.phase = ph := by
  cases h <;> rfl

theorem StopCall.ne_refused {ph : Phase} {n : Nat} {c : Call} {k : ErrKind} (h : StopCall ph n c k) : k ≠ .refused := by
  cases h <;> simp

/-- A call after which an operation goes on: whole, and where it reads an acknowledge, the byte 0x79. -/
def Call.GoesOn (c : Call) : Prop := c.Whole ∧ (c.phase = .rxAck → c = readAll .rxAck [0x79])

@[simp] theorem goesOn_wrote (bs : List Byte) : (wrote bs).GoesOn :=
  ⟨⟨rfl, rfl⟩, nofun⟩

@[simp] theorem goesOn_ack : (readAll .rxAck [0x79#8]).GoesOn :=
  ⟨⟨rfl, rfl⟩, fun _ => rfl⟩

@[simp] theorem goesOn_readAll {ph : Phase} (h : ph ≠ .rxAck) (bs : List Byte) : (readAll ph bs).GoesOn :=
  ⟨⟨rfl, rfl⟩, fun e => absurd e h⟩

theorem acked_goesOn (i : Instr) : ∀ c ∈ acked i, c.GoesOn := by
  simp [acked]

theorem bodyCalls_goesOn (len : Byte) (body : List Byte) : ∀ c ∈ bodyCalls len body, c.GoesOn := by
  by_cases h : len = 0#8 <;> simp [bodyCalls, h]

theorem rawCalls_goesOn (n : Half) (d : List Byte) : ∀ c ∈ rawCalls n d, c.GoesOn := by
  by_cases h : n = 0#16 <;> simp [rawCalls, h]

/-! ### The rows -/

/-- Every row begins with the write of the frame. -/
theorem callSequence_tx (len : Byte) (i : Instr) : [(.tx, (frame i).length)] <+: callSequence len i := by
  cases i <;> exact ⟨_, rfl⟩

/-- The row of every operation but READ_MEMORY goes on with the acknowledge. -/
theorem callSequence_ack (len : Byte) {i : Instr} (h : i = .enter ∨ requiresSynchronized i = true) :
    [(.tx, (frame i).length), (.rxAck, 1)] <+: callSequence len i := by
  cases i with
  | readMemory a n => simp [requiresSynchronized] at h
  | _ => exact ⟨_, rfl⟩

theorem bodyCalls_entries {len : Byte} {body : List Byte} (h : body.length = len.toNat) :
    (bodyCalls len body).map Call.entry = if len = 0 then [] else [(.rxBody, len.toNat)] := by
  by_cases hz : len = 0#8 <;> simp [bodyCalls, hz, h]

theorem rawCalls_entries {n : Half} {d : List Byte} (h : d.length = n.toNat) :
    (rawCalls n d).map Call.entry = if n = 0 then [] else [(.rxRaw, n.toNat)] := by
  by_cases hz : n = 0#16 <;> simp [rawCalls, hz, h]

/-! ### Every shape of an operation's calls follows its row -/

/-- The length byte `len` by which GET_VERSION's row is taken was read, where a call depends on it. -/
def LengthRead (i : Instr) (len : Byte) (cs : List Call) : Prop :=
  i = .getVersion → .rxVal ∈ cs.map Call.phase → readAll .rxLen [len] ∈ cs

/-- The calls `cs` follow the row of `i` as far as the result `res` tells. -/
structure FollowsRow (i : Instr) (len : Byte) (cs : List Call) (res : Except ErrKind Value) : Prop where
  row : cs.map Call.entry <+: callSequence len i
  lengthRead : LengthRead i len cs
  before : ∀ c ∈ cs.dropLast, c.GoesOn
  onOk : ∀ v, res = .ok v → cs.map Call.entry = callSequence len i ∧ ∀ c ∈ cs, c.GoesOn
  onRefused : res = .error .refused → cs = []

/-- An operation that went through its whole row. -/
theorem FollowsRow.of_whole {i : Instr} {len : Byte} {cs : List Call} {v : Value}
    (hrow : cs.map Call.entry = callSequence len i) (hlen : LengthRead i len cs) (hcs : ∀ c ∈ cs, c.GoesOn) :
    FollowsRow i len cs (.ok v) where
  row := hrow ▸ List.prefix_rfl
  lengthRead := hlen
  before c hc := hcs c (List.mem_of_mem_dropLast hc)
  onOk _ _ := ⟨hrow, hcs⟩
  onRefused := nofun

/-- An operation that a call `c` ended. -/
theorem FollowsRow.of_last {i : Instr} {len : Byte} {cs : List Call} {c : Call} {k : ErrKind}
    (hrow : (cs ++ [c]).map Call.entry <+: callSequence len i) (hlen : LengthRead i len (cs ++ [c]))
    (hcs : ∀ d ∈ cs, d.GoesOn) (hk : k ≠ .refused) : FollowsRow i len (cs ++ [c]) (.error k) where
  row := hrow
  lengthRead := hlen
  before := by simpa using hcs
  onOk := nofun
  onRefused e := absurd (Except.error.inj e) hk

/-- In every shape that an operation's calls can have, they follow its row; where no length byte was read any `len` will do. -/
theorem Trace.followsRow {i : Instr} {y : Bool} {cs : List Call} {res : Except ErrKind Value} (h : Trace i y cs res) :
    ∃ len, FollowsRow i len cs res := by
  cases h with
  | refused _ _ => exact ⟨0, by simp, by simp [LengthRead], by simp, nofun, fun _ => rfl⟩
  | writeFails _ _ k _ =>
    exact ⟨0, .of_last (cs := []) (callSequence_tx 0 i) (by simp [LengthRead]) (by simp) nofun⟩
  | enterAck _ => exact ⟨0, .of_whole rfl nofun (acked_goesOn _)⟩
  | enterNoResponse _ r _ _ | enterFails _ =>
    exact ⟨0, .of_last (cs := [_]) (callSequence_ack 0 (.inl rfl)) nofun (by simp) nofun⟩
  | nacked _ hi r _ _ | ackFails _ hi =>
    exact ⟨0, .of_last (cs := [_]) (callSequence_ack 0 (.inr hi)) (by simp [LengthRead, wrote]) (by simp) nofun⟩
  | sendCommandOk o => exact ⟨0, .of_whole rfl nofun (acked_goesOn _)⟩
  | versionLenStops c k hc =>
    exact ⟨0, .of_last (by simp [acked, callSequence, hc.entry])
      (by simp [LengthRead, acked, wrote, readAll, hc.phase_eq]) (acked_goesOn _) hc.ne_refused⟩
  | versionValStops len c k hc =>
    exact ⟨len, .of_last (cs := acked _ ++ [readAll .rxLen [len]]) (by simp [acked, callSequence, hc.entry])
      (by simp [LengthRead]) (by simp [acked]) hc.ne_refused⟩
  | versionBodyStops len ver c k hz hc =>
    exact ⟨len, .of_last (cs := acked _ ++ [readAll .rxLen [len], readAll .rxVal [ver]])
      (by simp [acked, callSequence, hc.entry, show len ≠ 0#8 from hz]) (by simp [LengthRead]) (by simp [acked])
      hc.ne_refused⟩
  | versionTailStops len ver body c k hb hc =>
    exact ⟨len, .of_last (by simp [acked, callSequence, hc.entry, bodyCalls_entries hb]) (by simp [LengthRead])
      (by simpa [acked, or_imp, forall_and] using bodyCalls_goesOn len body) hc.ne_refused⟩
  | versionOk len ver body trail hb =>
    exact ⟨len, .of_whole (by simp [acked, callSequence, bodyCalls_entries hb]) (by simp [LengthRead])
      (by simpa [acked, or_imp, forall_and] using bodyCalls_goesOn len body)⟩
  | chipIdLenStops c k hc =>
    exact ⟨0, .of_last (by simp [acked, callSequence, hc.entry]) nofun (acked_goesOn _) hc.ne_refused⟩
  | chipIdValStops len c k hc =>
    exact ⟨len, .of_last (cs := acked _ ++ [readAll .rxLen [len]]) (by simp [acked, callSequence, hc.entry]) nofun
      (by simp [acked]) hc.ne_refused⟩
  | chipIdTailStops len b0 b1 c k hc =>
    exact ⟨len, .of_last (cs := acked _ ++ [readAll .rxLen [len], readAll .rxVal [b0, b1]])
      (by simp [acked, callSequence, hc.entry]) nofun (by simp [acked]) hc.ne_refused⟩
  | chipIdOk len b0 b1 trail => exact ⟨len, .of_whole rfl nofun (by simp [acked])⟩
  | rawStops _ a n c k hz hc =>
    exact ⟨0, .of_last (cs := [_]) (by simp [callSequence, hc.entry, show n ≠ 0#16 from hz]) nofun (by simp)
      hc.ne_refused⟩
  | rawOk _ a n d hd =>
    exact ⟨0, .of_whole (by simp [callSequence, rawCalls_entries hd]) nofun (by simpa using rawCalls_goesOn n d)⟩

theorem status_resultOf_eq_ok {res : Except ErrKind Value} (h : (resultOf res).status = .ok) : ∃ v, res = .ok v := by
  match res with
  | .ok v => exact ⟨v, rfl⟩
  | .error k => cases k <;> simp [Result.status] at h

theorem status_resultOf_eq_refused {res : Except ErrKind Value} (h : (resultOf res).status = .refused) :
    res = .error .refused := by
  match res with
  | .ok v => simp [Result.status] at h
  | .error k => cases k <;> simp [Result.status] at h ⊢

/-- Settles O33: in every shape that an operation's calls can have, they follow its row (`Trace.followsRow`). -/
theorem phasesFollowTheTable : Obligations.PhasesFollowTheTable := by
  intro i s t r h hdelivered
  obtain ⟨cs, res, -, htr, hidle, -, -, hdel, -, hcalls, -⟩ := exec_trace h
  obtain rfl : r = resultOf res := by simpa [hdelivered] using hdel
  obtain ⟨len, hrow, hlen, hbefore, hok, hrefused⟩ := htr.followsRow
  refine ⟨hidle, cs, len, hcalls, hrow, hlen, hbefore, fun hst => ?_, fun hst => ?_⟩
  · obtain ⟨v, hv⟩ := status_resultOf_eq_ok hst
    exact hok v hv
  · exact hrefused (status_resultOf_eq_refused hst)

end Sys2Proof.Machine
end

section
/-! PROOFS. 10_state.md R31: of everything a state holds, only the flag and what the transport will answer carry over into an operation. -/

namespace Sys2Proof.Machine

/-! ### The part of a state that an operation looks at -/

/-- `s` seen from a session in the state `base`: what no operation looks at is `base`'s, and the calls of `s` come after its. -/
def rebase (base s : State) : State :=
  { s with
    activity := base.activity
    settings := base.settings
    requests := base.requests
    delivered := base.delivered
    transport := { s.transport with
      isOpen := base.transport.isOpen
      calls := base.transport.calls ++ s.transport.calls } }

/-- A new session with the flag and the environment of `s`. -/
def bare (s : State) : State :=
  { State.construct Settings.default { s.transport with isOpen := true, calls := [] } with
    synchronized := s.synchronized }

theorem rebase_bare (s : State) : rebase s (bare s) = s := by
  simp [rebase, bare, State.construct]

/-- The flag and the environment are all that a bare session has of its own. -/
theorem bare_eq {s s' : State} (hy : s.synchronized = s'.synchronized)
    (hi : s.transport.incoming = s'.transport.incoming)
    (hw : s.transport.writeAnswers = s'.transport.writeAnswers) : bare s = bare s' := by
  simp [bare, State.construct, hy, hi, hw]

/-! ### Every step of an operation is the same from every base -/

/-- The step `p` gives the same from `s` whatever the base. -/
def Rebases {α : Type} (p : State → Reply α) : Prop :=
  ∀ base s, p (rebase base s) = ((p s).1, rebase base (p s).2)

theorem Rebases.andThen {α β : Type} {p : State → Reply α} {f : α → State → Reply β} (hp : Rebases p)
    (hf : ∀ a, Rebases (f a)) : Rebases fun s => Machine.andThen (p s) f := by
  intro base s
  simp only [hp base s]
  rcases p s with ⟨k | a, s'⟩
  · rfl
  · exact hf a base s'

theorem rebases_pure {α : Type} (x : Except ErrKind α) : Rebases fun s => (x, s) :=
  fun _ _ => rfl

theorem rebases_setSynchronized {α : Type} (x : Except ErrKind α) : Rebases fun s => (x, setSynchronized s) :=
  fun _ _ => rfl

theorem txWrite_rebases (ph : Phase) (bs : List Byte) : Rebases (txWrite ph bs) := by
  intro base s
  simp only [txWrite, show nextWriteAnswer (rebase base s) = nextWriteAnswer s from rfl]
  cases nextWriteAnswer s <;> simp [rebase, afterWrite]

theorem rxRead_rebases (ph : Phase) (n : Nat) : Rebases (rxRead ph n) := by
  intro base s
  rcases Nat.eq_zero_or_pos n with rfl | hn
  · rfl
  · simp [rxRead_pos hn, rebase, afterRead]

theorem rxByte_rebases (ph : Phase) : Rebases (rxByte ph) :=
  (rxRead_rebases ph 1).andThen fun r _ _ => by cases r <;> rfl

theorem rxPair_rebases (ph : Phase) : Rebases (rxPair ph) :=
  (rxRead_rebases ph 2).andThen fun r _ _ => by match r with | [] => rfl | [_] => rfl | _ :: _ :: _ => rfl

theorem rxReadAll_rebases (ph : Phase) (n : Nat) : Rebases (rxReadAll ph n) :=
  (rxRead_rebases ph n).andThen fun r _ _ => by by_cases h : r.length < n <;> simp [h]

theorem enterOp_rebases : Rebases enterOp :=
  (txWrite_rebases _ _).andThen fun _ => (rxRead_rebases _ _).andThen fun r => by
    cases isAck r
    · exact rebases_pure _
    · exact rebases_setSynchronized _

/-- A precondition on the flag, which every base leaves alone. -/
theorem Rebases.unless_unsynchronized {α : Type} {p q : State → Reply α} (hp : Rebases p) (hq : Rebases q) :
    Rebases fun s => if s.synchronized = false then p s else q s := by
  intro base s
  simp only [show (rebase base s).synchronized = s.synchronized from rfl]
  split
  · exact hp base s
  · exact hq base s

theorem sendCommandOp_rebases (o : Byte) : Rebases (sendCommandOp o) :=
  (rebases_pure _).unless_unsynchronized <|
    (txWrite_rebases _ _).andThen fun _ => (rxRead_rebases _ _).andThen fun r => by
      cases isAck r <;> exact rebases_pure _

theorem operationOf_rebases (i : Instr) : Rebases (operationOf i) := by
  cases i with
  | enter => exact enterOp_rebases
  | sendCommand o => exact sendCommandOp_rebases o
  | getVersion =>
    exact (sendCommandOp_rebases _).andThen fun _ => (rxByte_rebases _).andThen fun _ =>
      (rxByte_rebases _).andThen fun _ => (rxReadAll_rebases _ _).andThen fun _ =>
        (rxByte_rebases _).andThen fun _ => rebases_pure _
  | getChipId =>
    exact (sendCommandOp_rebases _).andThen fun _ => (rxByte_rebases _).andThen fun _ =>
      (rxPair_rebases _).andThen fun _ => (rxByte_rebases _).andThen fun _ => rebases_pure _
  | readMemory a n =>
    exact (txWrite_rebases _ _).andThen fun _ => (rxReadAll_rebases _ _).andThen fun _ => rebases_pure _

/-- An operation from `s` is the operation from the bare session, seen from `s`. -/
theorem operationOf_eq_rebase (i : Instr) (s : State) :
    operationOf i s = ((operationOf i (bare s)).1, rebase s (operationOf i (bare s)).2) := by
  have h := operationOf_rebases i s (bare s)
  rwa [rebase_bare] at h

/-- Settles O36: both operations are that of one bare session. -/
theorem onlyTheFlagCarriesOver : Obligations.OnlyTheFlagCarriesOver := by
  intro i s s' t t' hy hi hw h h'
  obtain ⟨-, rfl⟩ := exec_next h
  obtain ⟨-, rfl⟩ := exec_next h'
  rw [operationOf_eq_rebase i s, operationOf_eq_rebase i s', ← bare_eq hy hi hw]
  exact ⟨_, _, rfl, rfl, rfl, rfl, rfl, rfl, rfl⟩

end Sys2Proof.Machine
end

section
/-! PROOFS. 20_memory.md: the frame goes out before any byte is read (R40, R48, R49, R54), the receive stream is consumed once (R41), and what the outside does between steps leaves the block alone (R33, R41, R56). -/

namespace Sys2Proof.Machine

/-! ### The frame goes out first (R40, R48, R49, R54) -/

/-- The calls of `i` are none, or a write of its frame and then reads: none after a failed write, the one acknowledge read, or,
in an operation other than ENTER, any. -/
inductive FrameFirst (i : Instr) : List Call → Prop where
  | noCall : FrameFirst i []
  | writeFails (k : Nat) : FrameFirst i [⟨.tx, .write (frame i) ((frame i).take k) true⟩]
  | ackOnly (r : List Byte) (f : Bool) : FrameFirst i [wrote (frame i), ⟨.rxAck, .read 1 r f⟩]
  | thenReads (hi : i ≠ .enter) (reads : List Call) (h : ∀ c ∈ reads, c.isWrite = false) :
      FrameFirst i (wrote (frame i) :: reads)

@[simp] theorem isWrite_readAll (ph : Phase) (bs : List Byte) : (readAll ph bs).isWrite = false := rfl

theorem StopCall.isWrite_eq {ph : Phase} {n : Nat} {c : Call} {k : ErrKind} (h : StopCall ph n c k) :
    c.isWrite = false := by
  cases h <;> rfl

theorem bodyCalls_isWrite (len : Byte) (body : List Byte) : ∀ c ∈ bodyCalls len body, c.isWrite = false := by
  by_cases h : len = 0#8 <;> simp [bodyCalls, h]

theorem rawCalls_isWrite (n : Half) (d : List Byte) : ∀ c ∈ rawCalls n d, c.isWrite = false := by
  by_cases h : n = 0#16 <;> simp [rawCalls, h]

/-- An acknowledged command other than ENTER makes only reads after its acknowledge. -/
theorem FrameFirst.acked {i : Instr} (hi : i ≠ .enter) {reads : List Call} (h : ∀ c ∈ reads, c.isWrite = false) :
    FrameFirst i (Machine.acked i ++ reads) :=
  .thenReads hi (readAll .rxAck [0x79] :: reads) (by simpa using h)

/-- In every shape that an operation's calls can have, the frame is written first. -/
theorem Trace.frameFirst {i : Instr} {y : Bool} {cs : List Call} {res : Except ErrKind Value} (h : Trace i y cs res) :
    FrameFirst i cs := by
  cases h with
  | refused _ _ => exact .noCall
  | writeFails _ _ k _ => exact .writeFails k
  | enterAck _ | sendCommandOk _ => exact .ackOnly [0x79] false
  | enterNoResponse _ r _ _ | nacked _ _ r _ _ => exact .ackOnly r false
  | enterFails _ | ackFails _ _ => exact .ackOnly [] true
  | versionLenStops c k hc | chipIdLenStops c k hc => exact .acked (by simp) (by simp [hc.isWrite_eq])
  | versionValStops len c k hc | chipIdValStops len c k hc => exact .acked (by simp) (by simp [hc.isWrite_eq])
  | versionBodyStops len ver c k _ hc => exact .acked (by simp) (by simp [hc.isWrite_eq])
  | chipIdTailStops len b0 b1 c k hc => exact .acked (by simp) (by simp [hc.isWrite_eq])
  | versionTailStops len ver body c k _ hc =>
    rw [List.append_assoc, List.append_assoc]
    exact .acked (by simp) (by simpa [or_imp, forall_and, hc.isWrite_eq] using bodyCalls_isWrite len body)
  | versionOk len ver body trail _ =>
    rw [List.append_assoc, List.append_assoc]
    exact .acked (by simp) (by simpa [or_imp, forall_and] using bodyCalls_isWrite len body)
  | chipIdOk len b0 b1 trail => exact .acked (by simp) (by simp)
  | rawStops _ a n c k _ hc => exact .thenReads (by simp) [c] (by simp [hc.isWrite_eq])
  | rawOk _ a n d _ => exact .thenReads (by simp) _ (rawCalls_isWrite n d)

theorem sent_of_not_isWrite {c : Call} (h : c.isWrite = false) : c.sent = [] := by
  obtain ⟨ph, io⟩ := c
  cases io with
  | write bs sent f => simp at h
  | read n r f => rfl

/-- Reads put nothing on the wire. -/
theorem txStream_of_reads {cs : List Call} (h : ∀ c ∈ cs, c.isWrite = false) : txStream cs = [] :=
  List.flatMap_eq_nil_iff.mpr fun c hc => sent_of_not_isWrite (h c hc)

/-- Settles O32: in every shape that an operation's calls can have, the frame is written first (`Trace.frameFirst`). -/
theorem frameWrittenBeforeAnyRead : Obligations.FrameWrittenBeforeAnyRead := by
  refine ⟨fun i s t h => ?_, fun _ => rfl, fun _ _ => rfl⟩
  obtain ⟨cs, res, -, htr, -, -, -, -, -, hcalls, -⟩ := exec_trace h
  rw [hcalls]
  cases htr.frameFirst with
  | noCall => exact .inl (List.append_nil _)
  | writeFails k =>
    exact .inr ⟨_, true, [], rfl, by simp, List.take_prefix k _, nofun, fun _ => rfl, nofun, by simp⟩
  | ackOnly r f =>
    exact .inr ⟨_, false, _, rfl, by simp, List.prefix_rfl, fun _ => rfl, nofun, fun _ _ => ⟨r, f, rfl⟩, by simp [wrote]⟩
  | thenReads hi reads hreads =>
    exact .inr ⟨_, false, reads, rfl, hreads, List.prefix_rfl, fun _ => rfl, nofun, fun e => absurd e hi,
      by simp [wrote, txStream_of_reads hreads]⟩

/-! ### The receive stream is consumed once (R41) -/

/-- From `s` to `t` calls were added, and the bytes they took are just those that left the front of the receive stream. -/
def ConsumesOnce (s t : State) : Prop :=
  ∃ cs, t.transport.calls = s.transport.calls ++ cs ∧
    streamBytes s.transport.incoming = rxTaken cs ++ streamBytes t.transport.incoming

theorem ConsumesOnce.refl (s : State) : ConsumesOnce s s := ⟨[], (List.append_nil _).symm, rfl⟩

theorem ConsumesOnce.trans {s t u : State} (h : ConsumesOnce s t) (k : ConsumesOnce t u) : ConsumesOnce s u := by
  obtain ⟨cs, hcalls, hbytes⟩ := h
  obtain ⟨ds, kcalls, kbytes⟩ := k
  exact ⟨cs ++ ds, by rw [kcalls, hcalls, List.append_assoc], by rw [hbytes, kbytes, rxTaken_append, List.append_assoc]⟩

theorem microStep_consumesOnce (s : State) : ConsumesOnce s (microStep s) := by
  by_cases ha : s.activity = .idle
  · rw [microStep_idle ha]
    exact .refl s
  · obtain ⟨cs, -, -, hm⟩ := microStep_moves ha
    exact ⟨cs, hm.calls, hm.bytes⟩

theorem microSteps_consumesOnce (n : Nat) (s : State) : ConsumesOnce s (microSteps n s) := by
  induction n generalizing s with
  | zero => exact .refl s
  | succ n ih => exact (microStep_consumesOnce s).trans (ih _)

theorem exec_consumesOnce {i : Instr} {s t : State} (h : exec i s = .next t) : ConsumesOnce s t := by
  obtain ⟨cs, res, -, -, -, -, -, -, -, hcalls, hbytes, -⟩ := exec_trace h
  exact ⟨cs, hcalls, hbytes⟩

/-- Settles O44: by the three things a step can be; each micro-step of an operation in progress consumes once, and so do all. -/
theorem receiveStreamConsumedOnce : Obligations.ReceiveStreamConsumedOnce := by
  intro s t h
  obtain ⟨-, ⟨r, rest, i, -, -, -, he⟩ | ⟨-, -, rfl⟩ | ⟨-, rfl⟩⟩ := step_next_cases h
  · exact (exec_consumesOnce he :)
  · exact ConsumesOnce.refl t
  · exact microSteps_consumesOnce 6 s

/-! ### What the outside does between steps (R33, R41, R56, R166) -/

/-- A change of what the invariant does not speak of: the requests, the receive stream, the results, the transport's being open. -/
theorem Invariant.of_same_block {s t : State} (h : Invariant s) (hset : t.settings = s.settings)
    (hcalls : t.transport.calls = s.transport.calls) (hy : t.synchronized = s.synchronized)
    (ha : t.activity = s.activity) : Invariant t :=
  h.transfer hset hcalls (hy ▸ h.synchronizedOnlyAfterHandshake) (ha ▸ h.syncSent)
    (ha ▸ hy ▸ h.acceptedInMode)

/-- Settles O47: none of the three actions changes what the invariant speaks of (`Invariant.of_same_block`). -/
theorem outsideActionsKeepTheInvariant : Obligations.OutsideActionsKeepTheInvariant := by
  refine ⟨fun s r items h => ?_, fun s r items t ht => ?_, fun _ _ => ⟨rfl, rfl⟩, fun _ _ => ⟨rfl, rfl, rfl⟩,
    fun _ => ⟨rfl, rfl, rfl⟩⟩
  · exact ⟨h.of_same_block rfl rfl rfl rfl, h.of_same_block rfl rfl rfl rfl, h.of_same_block rfl rfl rfl rfl⟩
  · rcases ht with rfl | rfl | rfl <;> exact ⟨rfl, rfl, rfl, rfl, rfl, rfl⟩

end Sys2Proof.Machine
end

section
/-! PROOFS. 30_encoding.md: the frames and their reading as operations (R61 to R65, R82), the checksum (R63), the address split (R65) and the chip identifier (R71). -/

namespace Sys2Proof

/-! ### Reading a frame back (R61, R62, R64, R82) -/

/-- Two bytes with the right checksum read as the table's row for that opcode, whatever the untransmitted operand. -/
theorem decodeFrame_commandFrame (o : Byte) (length : Half) :
    decodeFrame (commandFrame o) length = .ok (tableReading (.sendCommand o)) := by
  simp only [decodeFrame, commandFrame, tableReading, ne_eq, not_true_eq_false, if_false]
  split
  · rfl
  · split <;> rfl

theorem decodeFrame_readMemory (a : Word) (n : Half) : decodeFrame (frame (.readMemory a n)) n = .ok (.readMemory a n) := by
  change Except.ok (Instr.readMemory (joinLe32 _ _ _ _) n) = _
  rw [joinLe32_split]

/-- The frame of an operation, with the operand it does not carry, reads as the table's reading of that operation. -/
theorem decodeFrame_frame (i : Instr) : decodeFrame (frame i) (untransmittedLength i) = .ok (tableReading i) := by
  cases i with
  | enter => rfl
  | sendCommand o => exact decodeFrame_commandFrame o 0
  | getVersion => exact decodeFrame_commandFrame Config.OP_GET_VERSION 0
  | getChipId => exact decodeFrame_commandFrame Config.OP_GET_CHIP_ID 0
  | readMemory a n => exact decodeFrame_readMemory a n

/-- The table's reading changes an operation only for another that transmits the same bytes. -/
theorem frame_tableReading (i : Instr) : frame (tableReading i) = frame i := by
  cases i with
  | sendCommand o =>
    simp only [tableReading]
    split
    · next h => rw [h]; rfl
    · split
      · next h => rw [h]; rfl
      · rfl
  | _ => rfl

theorem tableReading_of_ne {i : Instr} (h1 : i ≠ .sendCommand 0x01) (h2 : i ≠ .sendCommand 0x02) : tableReading i = i := by
  cases i with
  | sendCommand o =>
    have hv : o ≠ Config.OP_GET_VERSION := fun h => h1 (h ▸ rfl)
    have hc : o ≠ Config.OP_GET_CHIP_ID := fun h => h2 (h ▸ rfl)
    simp only [tableReading, if_neg hv, if_neg hc]
  | _ => rfl

/-- A frame that reads as an operation is the one that operation transmits. -/
theorem frame_of_decodeFrame {bs : List Byte} {length : Half} {i : Instr} (h : decodeFrame bs length = .ok i) :
    frame i = bs := by
  unfold decodeFrame at h
  split at h
  case h_1 b =>
    split at h
    · next hb => cases h; rw [hb]; rfl
    · cases h
  case h_2 o c =>
    by_cases hc : c = checksum o
    · have hread : decodeFrame [o, c] length = .ok i := h
      rw [hc, ← commandFrame, decodeFrame_commandFrame] at hread
      cases hread
      rw [frame_tableReading, frame_sendCommand, commandFrame, hc]
    · rw [if_pos hc] at h
      cases h
  case h_3 b d0 d1 d2 d3 =>
    split at h
    · next hb => cases h; rw [frame_readMemory, addressBytes_join, hb]; rfl
    · cases h
  case h_4 => cases h

/-! ### A frame as one number (R82) -/

theorem tableWordOfBytes_snoc (bs : List Byte) (b : Byte) :
    tableWordOfBytes (bs ++ [b]) = tableWordOfBytes bs * 256 + b.toNat := by
  simp [tableWordOfBytes]

/-- The number of a frame loses none of its bytes. -/
theorem bytesOfTableWord_tableWordOfBytes (bs : List Byte) : bytesOfTableWord bs.length (tableWordOfBytes bs) = bs := by
  induction bs using List.reverseRecOn with
  | nil => rfl
  | append_singleton bs b ih => rw [tableWordOfBytes_snoc, List.length_append, List.length_singleton, bytesOfTableWord_snoc, ih]

/-- Settles O4: each frame reads back (`decodeFrame_frame`), and only what an operation transmits is read
(`frame_of_decodeFrame`). -/
theorem framesAndOperationsAgree : Obligations.FramesAndOperationsAgree :=
  ⟨fun i => ⟨decodeFrame_frame i, tableReading_of_ne, bytesOfTableWord_tableWordOfBytes (frame i)⟩,
    fun _ _ _ => frame_of_decodeFrame⟩

/-- Settles O1: each word is evaluated. -/
theorem tableWordsReadAsTheirRows : Obligations.TableWordsReadAsTheirRows := by
  unfold Obligations.TableWordsReadAsTheirRows
  decide

/-! ### Which operations transmit the same bytes (R64, R82) -/

/-- Only READ_MEMORY transmits five bytes. -/
theorem exists_readMemory_of_frame_length {i : Instr} (h : (frame i).length = 5) : ∃ a n, i = .readMemory a n := by
  cases i with
  | readMemory a n => exact ⟨a, n, rfl⟩
  | _ => simp at h

/-- Any other frame carries all of its operation. -/
theorem untransmittedLength_of_frame_length_ne {i : Instr} (h : (frame i).length ≠ 5) : untransmittedLength i = 0 := by
  cases i with
  | readMemory a n => simp at h
  | _ => rfl

theorem frame_readMemory_inj {a b : Word} {n m : Half} (h : frame (.readMemory a n) = frame (.readMemory b m)) : a = b :=
  addressBytes_injective (List.cons.inj h).2

/-- Settles O5: two READ_MEMORYs share a frame by their address alone; any other frame gives its reading back with nothing
untransmitted, so a shared frame is a shared reading. -/
theorem sameFrameExactlyWhenIndistinguishable : Obligations.SameFrameExactlyWhenIndistinguishable := by
  intro i j
  constructor
  · intro h
    by_cases h5 : (frame i).length = 5
    · obtain ⟨a, n, rfl⟩ := exists_readMemory_of_frame_length h5
      obtain ⟨b, m, rfl⟩ := exists_readMemory_of_frame_length (h ▸ h5)
      exact .inr ⟨a, n, m, rfl, by rw [frame_readMemory_inj h]⟩
    · have hi := decodeFrame_frame i
      have hj := decodeFrame_frame j
      rw [untransmittedLength_of_frame_length_ne h5, h] at hi
      rw [untransmittedLength_of_frame_length_ne (h ▸ h5)] at hj
      exact .inl (Except.ok.inj (hi.symm.trans hj))
  · rintro (h | ⟨a, n, m, rfl, rfl⟩)
    · rw [← frame_tableReading i, h, frame_tableReading]
    · rfl

/-! ### The checksum (R63) -/

/-- The mask has every bit set, so the checksum is the bitwise complement. -/
theorem checksum_eq_not (o : Byte) : checksum o = ~~~o := BitVec.xor_allOnes

theorem checksum_getLsbD (o : Byte) {k : Nat} (h : k < 8) : (checksum o).getLsbD k = !o.getLsbD k := by
  rw [checksum_eq_not, BitVec.getLsbD_not, decide_eq_true h, Bool.true_and]

theorem xor_checksum (o : Byte) : o ^^^ checksum o = 0xFF := by
  rw [checksum, ← BitVec.xor_assoc, BitVec.xor_self, BitVec.zero_xor]
  rfl

theorem checksum_toNat (o : Byte) : (checksum o).toNat = 255 - o.toNat := by
  rw [checksum_eq_not, BitVec.toNat_not]

theorem checksum_ne (o : Byte) : checksum o ≠ o := by
  intro h
  have hmask := xor_checksum o
  rw [h, BitVec.xor_self] at hmask
  exact absurd hmask (by decide)

theorem checksum_checksum (o : Byte) : checksum (checksum o) = o := by
  rw [checksum_eq_not, checksum_eq_not, BitVec.not_not]

/-- Settles O6: the consequences hold of every opcode by the lemmas above; the frames and the listed values are the
definitions'. -/
theorem checksumIsTheComplement : Obligations.ChecksumIsTheComplement := by
  refine ⟨fun o => ⟨rfl, fun _ => checksum_getLsbD o, xor_checksum o, checksum_toNat o, checksum_ne o, checksum_checksum o,
    rfl⟩, rfl, rfl, rfl, fun _ _ => rfl, ?_⟩
  decide

/-! ### The address split (R65) -/

/-- A slice of a word as a number: what is left after dividing away the bits below it. -/
theorem extractLsb'_eq_ofNat_div (a : Word) (i : Nat) : a.extractLsb' i 8 = BitVec.ofNat 8 (a.toNat / 2 ^ i) := by
  rw [← Nat.shiftRight_eq_div_pow]
  rfl

theorem addressBytes_eq_ofNat (a : Word) : addressBytes a =
    [BitVec.ofNat 8 a.toNat, BitVec.ofNat 8 (a.toNat / 256), BitVec.ofNat 8 (a.toNat / 65536),
      BitVec.ofNat 8 (a.toNat / 16777216)] := by
  simp only [addressBytes, extractLsb'_eq_ofNat_div, Nat.reducePow, Nat.div_one]

theorem addressBytes_example : addressBytes 0x40015800 = [0x00, 0x58, 0x01, 0x40] := by decide

/-- Settles O7: the four slices are the address's digits in base 256, lowest first. -/
theorem addressSplitLowByteFirst : Obligations.AddressSplitLowByteFirst :=
  ⟨fun a n => by rw [frame_readMemory, addressBytes_eq_ofNat], addressBytes_example,
    fun n => by rw [frame_readMemory, addressBytes_example]⟩

/-! ### The chip identifier (R71) -/

theorem assembleChipId_high (b0 b1 : Byte) : (Machine.assembleChipId b0 b1).extractLsb' 8 8 = b0 := by
  apply BitVec.eq_of_toNat_eq
  rw [BitVec.extractLsb'_toNat, assembleChipId_toNat, Nat.shiftRight_eq_div_pow]
  omega

theorem assembleChipId_low (b0 b1 : Byte) : (Machine.assembleChipId b0 b1).extractLsb' 0 8 = b1 := by
  apply BitVec.eq_of_toNat_eq
  rw [BitVec.extractLsb'_toNat, assembleChipId_toNat, Nat.shiftRight_eq_div_pow]
  omega

/-- Settles O8: the value is `256 * b0 + b1`, so each byte is a slice of it; the examples are evaluated. -/
theorem chipIdFirstByteHigh : Obligations.ChipIdFirstByteHigh := by
  refine ⟨fun b0 b1 => ⟨rfl, assembleChipId_toNat b0 b1, assembleChipId_high b0 b1, assembleChipId_low b0 b1⟩, ?_⟩
  decide

end Sys2Proof
end

section
/-! PROOFS. 40_handshake.md: the state ENTER leaves, by the answers of the transport (R90 to R93). -/

namespace Sys2Proof.Machine

/-! ### The state an operation leaves, from the calls its steps make -/

/-- After the one write of an operation and any reads, `Moves` and the answer used up fix every field but the flag and what
is left of the stream. -/
theorem deliver_eq_after {s s' : State} {cs : List Call} (x : Except ErrKind Value) (hidle : s.activity = .idle)
    (hm : Moves s s' cs) (ha : s'.transport.writeAnswers = s.transport.writeAnswers.tail) :
    deliver (x, s') =
      { s.after cs s'.transport.incoming (resultOf x) with synchronized := s'.synchronized } := by
  obtain ⟨y, act, set, req, del, op, inc, ans, calls⟩ := s'
  obtain ⟨-, rfl, rfl, rfl, rfl, rfl, -⟩ := hm
  subst ha
  simp only [deliver, State.after, hidle]

theorem exec_eq_after {i : Instr} {s s' : State} {x : Except ErrKind Value} {cs : List Call} (hr : Ready s)
    (he : operationOf i s = (x, s')) (hm : Moves s s' cs)
    (ha : s'.transport.writeAnswers = s.transport.writeAnswers.tail) :
    exec i s = .next { s.after cs s'.transport.incoming (resultOf x) with synchronized := s'.synchronized } := by
  rw [exec_ready hr, he, deliver_eq_after x hr.2 hm ha]

/-- A completed write of `bs` and the one-byte read of its reply. -/
theorem write_then_read_moves (bs : List Byte) {s : State} {t : Taken} (ht : takeRx 1 s.transport.incoming = t) :
    Moves s (afterRead .rxAck 1 t (afterWrite .tx bs bs false s)) [wrote bs, ⟨.rxAck, .read 1 t.bytes t.failed⟩] :=
  (afterWrite_moves .tx bs bs false s).trans (moves_read .rxAck 1 ht)

/-! ### ENTER's steps, by the answer (R90) -/

theorem enterOp_ack {s : State} {rest : List RxItem} (hw : WriteCompletes s)
    (ht : takeRx 1 s.transport.incoming = ⟨[0x79], false, rest⟩) :
    enterOp s = (.ok .unit, setSynchronized
      (afterRead .rxAck 1 ⟨[0x79], false, rest⟩ (afterWrite .tx [0x7F] [0x7F] false s))) := by
  simp [enterOp, txWrite_completes hw, rxRead_pos, ht]

/-- Another byte and no byte at all end ENTER alike. -/
theorem enterOp_noResponse {s : State} {r : List Byte} {rest : List RxItem} (hw : WriteCompletes s)
    (ht : takeRx 1 s.transport.incoming = ⟨r, false, rest⟩) (hr : isAck r = false) :
    enterOp s = (.error .noResponse,
      afterRead .rxAck 1 ⟨r, false, rest⟩ (afterWrite .tx [0x7F] [0x7F] false s)) := by
  simp [enterOp, txWrite_completes hw, rxRead_pos, ht, hr]

theorem enterOp_readFails {s : State} {rest : List RxItem} (hw : WriteCompletes s)
    (ht : takeRx 1 s.transport.incoming = ⟨[], true, rest⟩) :
    enterOp s = (.error .transportError,
      afterRead .rxAck 1 ⟨[], true, rest⟩ (afterWrite .tx [0x7F] [0x7F] false s)) := by
  simp [enterOp, txWrite_completes hw, rxRead_pos, ht]

theorem enterOp_writeFails {s : State} {k : Nat} (h : nextWriteAnswer s = .fails k) :
    enterOp s = (.error .transportError, afterWrite .tx [0x7F] (List.take k [0x7F]) true s) := by
  simp [enterOp, txWrite_fails h]

/-! ### ENTER as one operation (R90 to R93) -/

/-- Settles O14: each clause says what the one-byte read takes from the stream, or that the write fails, and so which end
of ENTER it is; `exec_eq_after` gives the state it leaves. -/
theorem enterSynchronizesOnAckOnly : Obligations.EnterSynchronizesOnAckOnly := by
  intro s hr
  refine ⟨fun rest hw h => ?ack, fun b rest hw h hb => ?other, fun rest hw h => ?stops, fun rest hw h => ?failure,
    fun k h => ?write⟩
  case ack =>
    have ht : takeRx 1 s.transport.incoming = ⟨[0x79], false, rest⟩ := by simp [h]
    exact exec_eq_after (i := .enter) hr (enterOp_ack hw ht)
      ((write_then_read_moves [0x7F] ht).trans (setSynchronized_moves _)) rfl
  case other =>
    have ht : takeRx 1 s.transport.incoming = ⟨[b], false, rest⟩ := by simp [h]
    have hack : isAck [b] = false := by simpa using hb
    exact exec_eq_after (i := .enter) hr (enterOp_noResponse hw ht hack) (write_then_read_moves [0x7F] ht) rfl
  case stops =>
    have ht : takeRx 1 s.transport.incoming = ⟨[], false, rest⟩ := takeRx_short (bs := []) Nat.one_pos h
    exact exec_eq_after (i := .enter) hr (enterOp_noResponse hw ht isAck_nil) (write_then_read_moves [0x7F] ht) rfl
  case failure =>
    have ht : takeRx 1 s.transport.incoming = ⟨[], true, rest⟩ := by simp [h]
    exact exec_eq_after (i := .enter) hr (enterOp_readFails hw ht) (write_then_read_moves [0x7F] ht) rfl
  case write =>
    exact exec_eq_after (i := .enter) hr (enterOp_writeFails h) (afterWrite_moves .tx _ _ true s) rfl

end Sys2Proof.Machine
end

section
/-! PROOFS. 41_framed_commands.md: SEND_COMMAND by the answers of the transport (R100 to R103, R112), and the replies that GET_VERSION and GET_CHIP_ID read after its acknowledge (R104 to R111). -/

namespace Sys2Proof.Machine

/-! ### SEND_COMMAND while synchronized, by the answer (R100, R102, R112) -/

/-- Another byte and no byte at all end SEND_COMMAND alike, apart from the detail. -/
theorem sendCommandOp_nacked {o : Byte} {s : State} {r : List Byte} {rest : List RxItem} (hs : s.synchronized = true)
    (hw : WriteCompletes s) (ht : takeRx 1 s.transport.incoming = ⟨r, false, rest⟩) (hr : isAck r = false) :
    sendCommandOp o s = (.error (.nacked (nackDetail r)),
      afterRead .rxAck 1 ⟨r, false, rest⟩ (afterWrite .tx (commandFrame o) (commandFrame o) false s)) := by
  simp [sendCommandOp, hs, txWrite_completes hw, rxRead_pos, ht, hr]

theorem sendCommandOp_readFails {o : Byte} {s : State} {rest : List RxItem} (hs : s.synchronized = true)
    (hw : WriteCompletes s) (ht : takeRx 1 s.transport.incoming = ⟨[], true, rest⟩) :
    sendCommandOp o s = (.error .transportError,
      afterRead .rxAck 1 ⟨[], true, rest⟩ (afterWrite .tx (commandFrame o) (commandFrame o) false s)) := by
  simp [sendCommandOp, hs, txWrite_completes hw, rxRead_pos, ht]

theorem sendCommandOp_writeFails {o : Byte} {s : State} {k : Nat} (hs : s.synchronized = true)
    (h : nextWriteAnswer s = .fails k) :
    sendCommandOp o s = (.error .transportError,
      afterWrite .tx (commandFrame o) ((commandFrame o).take k) true s) := by
  simp [sendCommandOp, hs, txWrite_fails h]

/-- Settles O15: each clause says what the one-byte read takes from the stream, or that the write fails, and so which end
of SEND_COMMAND it is; `exec_eq_after` gives the state it leaves. -/
theorem sendCommandWritesFrameAndTestsAck : Obligations.SendCommandWritesFrameAndTestsAck := by
  intro s o hr hs
  refine ⟨fun rest hw h => ?ack, fun b rest hw h hb => ?other, fun rest hw h => ?stops, fun rest hw h => ?failure,
    fun k h => ?write⟩
  case ack =>
    have ht : takeRx 1 s.transport.incoming = ⟨[0x79], false, rest⟩ := by simp [h]
    exact exec_eq_after (i := .sendCommand o) hr (sendCommandOp_ack hs hw h) (write_then_read_moves _ ht) rfl
  case other =>
    have ht : takeRx 1 s.transport.incoming = ⟨[b], false, rest⟩ := by simp [h]
    have hack : isAck [b] = false := by simpa using hb
    exact exec_eq_after (i := .sendCommand o) hr (sendCommandOp_nacked hs hw ht hack) (write_then_read_moves _ ht) rfl
  case stops =>
    have ht : takeRx 1 s.transport.incoming = ⟨[], false, rest⟩ := takeRx_short (bs := []) Nat.one_pos h
    exact exec_eq_after (i := .sendCommand o) hr (sendCommandOp_nacked hs hw ht isAck_nil) (write_then_read_moves _ ht)
      rfl
  case failure =>
    have ht : takeRx 1 s.transport.incoming = ⟨[], true, rest⟩ := by simp [h]
    exact exec_eq_after (i := .sendCommand o) hr (sendCommandOp_readFails hs hw ht) (write_then_read_moves _ ht) rfl
  case write =>
    exact exec_eq_after (i := .sendCommand o) hr (sendCommandOp_writeFails hs h) (afterWrite_moves .tx _ _ true s) rfl

/-! ### Steps that only read a known stream -/

/-- The state after the read calls `cs`, which left `rest` of the stream. -/
def State.afterReads (s : State) (cs : List Call) (rest : List RxItem) : State :=
  { s with transport := { s.transport with incoming := rest, calls := s.transport.calls ++ cs } }

/-- On the stream `items` the steps `p` make the read calls `cs`, leave `rest` and end with `x`; nothing else changes. -/
def Reads {α : Type} (p : State → Reply α) (items : List RxItem) (x : Except ErrKind α) (cs : List Call)
    (rest : List RxItem) : Prop :=
  ∀ s, s.transport.incoming = items → p s = (x, s.afterReads cs rest)

theorem reads_nothing {α : Type} (x : Except ErrKind α) (items : List RxItem) :
    Reads (fun s => (x, s)) items x [] items := by
  rintro s rfl
  simp [State.afterReads]

theorem Reads.andThen_ok {α β : Type} {p : State → Reply α} {f : α → State → Reply β} {items mid rest : List RxItem}
    {a : α} {x : Except ErrKind β} {cs ds : List Call} (hp : Reads p items (.ok a) cs mid)
    (hf : Reads (f a) mid x ds rest) : Reads (fun s => andThen (p s) f) items x (cs ++ ds) rest := by
  intro s h
  have e : (s.afterReads cs mid).afterReads ds rest = s.afterReads (cs ++ ds) rest := by simp [State.afterReads]
  show andThen (p s) f = _
  rw [hp s h, Machine.andThen_ok, hf _ rfl, e]

theorem Reads.andThen_error {α β : Type} {p : State → Reply α} {items rest : List RxItem} {k : ErrKind}
    {cs : List Call} (hp : Reads p items (.error k) cs rest) (f : α → State → Reply β) :
    Reads (fun s => andThen (p s) f) items (.error k) cs rest := by
  intro s h
  show andThen (p s) f = _
  rw [hp s h, Machine.andThen_error]

theorem reads_rxByte (ph : Phase) (b : Byte) (rest : List RxItem) :
    Reads (rxByte ph) (.byte b :: rest) (.ok b) [readAll ph [b]] rest :=
  fun _ h => rxByte_byte h

theorem reads_rxByte_stops (ph : Phase) {stop rest : List RxItem} (hs : Stops stop rest) :
    Reads (rxByte ph) stop (.error .shortRead) [⟨ph, .read 1 [] false⟩] rest := by
  rintro s rfl
  exact rxByte_stops hs

theorem reads_rxPair (ph : Phase) (b0 b1 : Byte) (rest : List RxItem) :
    Reads (rxPair ph) (.byte b0 :: .byte b1 :: rest) (.ok (b0, b1)) [readAll ph [b0, b1]] rest :=
  fun _ h => rxPair_bytes h

theorem reads_rxPair_short (ph : Phase) {bs : List Byte} {stop rest : List RxItem} (hl : bs.length < 2)
    (hs : Stops stop rest) :
    Reads (rxPair ph) (bytesIn bs ++ stop) (.error .shortRead) [⟨ph, .read 2 bs false⟩] rest :=
  fun _ h => rxPair_short hl hs h

/-- GET_VERSION's body; with a length byte of 0 it is no call (D7). -/
theorem reads_body {len : Byte} {body : List Byte} (hb : body.length = len.toNat) (rest : List RxItem) :
    Reads (rxReadAll .rxBody (bodySize len)) (bytesIn body ++ rest) (.ok body) (bodyCalls len body) rest := by
  by_cases hz : len = 0#8
  · subst hz
    obtain rfl : body = [] := List.length_eq_zero_iff.mp hb
    have e : rxReadAll .rxBody (bodySize 0#8) = fun s => (.ok [], s) := funext (rxReadAll_zero .rxBody)
    rw [e]
    exact reads_nothing _ rest
  · have hn : 0 < len.toNat := Nat.pos_of_ne_zero fun h => hz (BitVec.eq_of_toNat_eq h)
    intro s h
    rw [bodyCalls_of_ne hz, readAll, hb]
    exact rxReadAll_full hn hb h

theorem reads_body_short {len : Byte} {body : List Byte} {stop rest : List RxItem} (hl : body.length < len.toNat)
    (hs : Stops stop rest) :
    Reads (rxReadAll .rxBody (bodySize len)) (bytesIn body ++ stop) (.error .shortRead)
      [⟨.rxBody, .read len.toNat body false⟩] rest :=
  fun _ h => rxReadAll_short hl hs h

/-! ### The two replies after the acknowledge (R104, R107) -/

/-- GET_VERSION's steps after the acknowledge. -/
def versionReply (s : State) : Reply Value :=
  andThen (rxByte .rxLen s) fun len s =>
  andThen (rxByte .rxVal s) fun ver s =>
  andThen (rxReadAll .rxBody (bodySize len) s) fun _ s =>
  andThen (rxByte .rxTail s) fun _ s =>
    (.ok (.u8 ver), s)

theorem getVersionOp_eq (s : State) : getVersionOp s = andThen (sendCommandOp 0x01 s) fun _ => versionReply := rfl

/-- GET_CHIP_ID's steps after the acknowledge. -/
def chipIdReply (s : State) : Reply Value :=
  andThen (rxByte .rxLen s) fun _ s =>
  andThen (rxPair .rxVal s) fun b s =>
  andThen (rxByte .rxTail s) fun _ s =>
    (.ok (.u16 (assembleChipId b.1 b.2)), s)

theorem getChipIdOp_eq (s : State) : getChipIdOp s = andThen (sendCommandOp 0x02 s) fun _ => chipIdReply := rfl

theorem versionReply_whole (len ver trail : Byte) {body : List Byte} (rest : List RxItem)
    (hb : body.length = len.toNat) :
    Reads versionReply (bytesIn ([len, ver] ++ body ++ [trail]) ++ rest) (.ok (.u8 ver))
      ([readAll .rxLen [len], readAll .rxVal [ver]] ++ bodyCalls len body ++ [readAll .rxTail [trail]]) rest := by
  have h : Reads versionReply (.byte len :: .byte ver :: (bytesIn body ++ .byte trail :: rest)) (.ok (.u8 ver)) _ rest :=
    (reads_rxByte .rxLen len _).andThen_ok <| (reads_rxByte .rxVal ver _).andThen_ok <|
      (reads_body hb _).andThen_ok <| (reads_rxByte .rxTail trail rest).andThen_ok <| reads_nothing _ rest
  simpa using h

theorem chipIdReply_whole (len b0 b1 trail : Byte) (rest : List RxItem) :
    Reads chipIdReply (bytesIn [len, b0, b1, trail] ++ rest) (.ok (.u16 (assembleChipId b0 b1)))
      [readAll .rxLen [len], readAll .rxVal [b0, b1], readAll .rxTail [trail]] rest :=
  (reads_rxByte .rxLen len _).andThen_ok <| (reads_rxPair .rxVal b0 b1 _).andThen_ok <|
    (reads_rxByte .rxTail trail rest).andThen_ok <| reads_nothing _ rest

@[simp] theorem taken_wrote (bs : List Byte) : (wrote bs).taken = [] := rfl
@[simp] theorem sent_wrote (bs : List Byte) : (wrote bs).sent = bs := rfl
@[simp] theorem taken_readAll (ph : Phase) (bs : List Byte) : (readAll ph bs).taken = bs := rfl
@[simp] theorem sent_readAll (ph : Phase) (bs : List Byte) : (readAll ph bs).sent = [] := rfl

theorem rxTaken_bodyCalls {len : Byte} {body : List Byte} (hb : body.length = len.toNat) :
    rxTaken (bodyCalls len body) = body := by
  by_cases hz : len = 0#8
  · subst hz
    simpa using (List.length_eq_zero_iff.mp hb).symm
  · simp [bodyCalls_of_ne hz]

theorem txStream_bodyCalls (len : Byte) (body : List Byte) : txStream (bodyCalls len body) = [] :=
  txStream_of_reads (bodyCalls_isWrite len body)

/-- The reads `p` of a stream that holds the bytes `got` and then stops take all of `got` and end in ShortRead. -/
def CutShort {α : Type} (p : State → Reply α) (got : List Byte) (stop rest : List RxItem) : Prop :=
  ∃ cs, Reads p (bytesIn got ++ stop) (.error .shortRead) cs rest ∧ txStream cs = [] ∧ rxTaken cs = got

/-- By how far the reply came: to the length byte, the version byte, the body or the trailing byte. -/
theorem versionReply_cutShort {got : List Byte} {stop rest : List RxItem} (hs : Stops stop rest)
    (h : got.length < 2 ∨ ∃ len, got[0]? = some len ∧ got.length < 3 + len.toNat) :
    CutShort versionReply got stop rest := by
  match got with
  | [] => exact ⟨_, (reads_rxByte_stops .rxLen hs).andThen_error _, rfl, rfl⟩
  | [len] =>
    exact ⟨_, (reads_rxByte .rxLen len _).andThen_ok <| (reads_rxByte_stops .rxVal hs).andThen_error _, rfl, rfl⟩
  | len :: ver :: body =>
    have hl : body.length < len.toNat + 1 := by
      simp at h
      omega
    rcases Nat.lt_or_eq_of_le (Nat.le_of_lt_succ hl) with hlt | hb
    · exact ⟨_, (reads_rxByte .rxLen len _).andThen_ok <| (reads_rxByte .rxVal ver _).andThen_ok <|
        (reads_body_short hlt hs).andThen_error _, rfl, by simp⟩
    · exact ⟨_, (reads_rxByte .rxLen len _).andThen_ok <| (reads_rxByte .rxVal ver _).andThen_ok <|
        (reads_body hb _).andThen_ok <| (reads_rxByte_stops .rxTail hs).andThen_error _,
        by simp [txStream_bodyCalls], by simp [rxTaken_bodyCalls hb]⟩

/-- By how far the reply came: to the length byte, the identifier or the trailing byte. -/
theorem chipIdReply_cutShort {got : List Byte} {stop rest : List RxItem} (hs : Stops stop rest)
    (h : got.length < 4) : CutShort chipIdReply got stop rest := by
  match got with
  | [] => exact ⟨_, (reads_rxByte_stops .rxLen hs).andThen_error _, rfl, rfl⟩
  | [len, b0, b1] =>
    exact ⟨_, (reads_rxByte .rxLen len _).andThen_ok <| (reads_rxPair .rxVal b0 b1 _).andThen_ok <|
      (reads_rxByte_stops .rxTail hs).andThen_error _, rfl, rfl⟩
  | [len] | [len, b0] =>
    exact ⟨_, (reads_rxByte .rxLen len _).andThen_ok <| (reads_rxPair_short .rxVal (by simp) hs).andThen_error _,
      rfl, rfl⟩

/-! ### From the reply to the operation -/

/-- An operation that is SEND_COMMAND of `o` and then the reads `reply`, on an acknowledged stream. -/
theorem exec_acknowledged {i : Instr} {o : Byte} {reply : State → Reply Value} {s : State} {mid rest : List RxItem}
    {x : Except ErrKind Value} {cs : List Call} (hop : operationOf i s = andThen (sendCommandOp o s) fun _ => reply)
    (hr : Ready s) (hs : s.synchronized = true) (hw : WriteCompletes s)
    (h : s.transport.incoming = .byte 0x79 :: mid) (hx : Reads reply mid x cs rest) :
    exec i s = .next (s.after (wrote (commandFrame o) :: readAll .rxAck [0x79] :: cs) rest (resultOf x)) := by
  rw [exec_ready hr, hop, sendCommandOp_ack hs hw h, andThen_ok, hx _ rfl]
  simp [deliver, State.afterReads, State.after, afterRead, afterWrite, wrote, readAll, hr.2]

theorem exec_cutShort {i : Instr} {o : Byte} {reply : State → Reply Value} {s : State} {got : List Byte}
    {stop rest : List RxItem} (hop : operationOf i s = andThen (sendCommandOp o s) fun _ => reply)
    (hr : Ready s) (hs : s.synchronized = true) (hw : WriteCompletes s)
    (h : s.transport.incoming = bytesIn (0x79 :: got) ++ stop) (hx : CutShort reply got stop rest) :
    ∃ cs, exec i s = .next (s.after cs rest (.err .shortRead)) ∧ txStream cs = commandFrame o ∧
      rxTaken cs = 0x79 :: got := by
  obtain ⟨cs, hreads, htx, hrx⟩ := hx
  exact ⟨_, exec_acknowledged hop hr hs hw h hreads, by simp [htx], by simp [hrx]⟩

/-- Settles O17: the acknowledge, then a whole version reply. -/
theorem getVersionReturnsByteAfterLength : Obligations.GetVersionReturnsByteAfterLength := by
  intro s len ver trail body rest hr hs hw hb h
  exact exec_acknowledged (i := .getVersion) (getVersionOp_eq s) hr hs hw h (versionReply_whole len ver trail rest hb)

/-- Settles O18: the acknowledge, then a version reply that stops early. -/
theorem getVersionCutShort : Obligations.GetVersionCutShort := by
  intro s got stop rest hr hs hw hstop hl h0 h
  match got with
  | [] => simp at h0
  | b :: got =>
    obtain rfl : b = 0x79 := by simpa using h0
    have hl' : got.length < 2 ∨ ∃ len, got[0]? = some len ∧ got.length < 3 + len.toNat := by
      rcases hl with hl | ⟨len, h1, hl⟩
      · exact .inl (Nat.lt_of_succ_lt_succ hl)
      · exact .inr ⟨len, by simpa using h1, by simp at hl; omega⟩
    exact exec_cutShort (i := .getVersion) (getVersionOp_eq s) hr hs hw h (versionReply_cutShort hstop hl')

/-- Settles O19: the acknowledge, then a whole identifier reply. -/
theorem getChipIdIgnoresLengthAndTrailer : Obligations.GetChipIdIgnoresLengthAndTrailer := by
  intro s len b0 b1 trail rest hr hs hw h
  exact exec_acknowledged (i := .getChipId) (getChipIdOp_eq s) hr hs hw h (chipIdReply_whole len b0 b1 trail rest)

/-- Settles O20: the acknowledge, then an identifier reply that stops early. -/
theorem getChipIdCutShort : Obligations.GetChipIdCutShort := by
  intro s got stop rest hr hs hw hstop hl h0 h
  match got with
  | [] => simp at h0
  | b :: got =>
    obtain rfl : b = 0x79 := by simpa using h0
    exact exec_cutShort (i := .getChipId) (getChipIdOp_eq s) hr hs hw h
      (chipIdReply_cutShort hstop (Nat.lt_of_succ_lt_succ hl))

/-! ### Through SEND_COMMAND (R110) -/

theorem OneCall.calls_prefix {α : Type} {ph : Phase} {s : State} {p : Reply α} (h : OneCall ph s p) :
    s.transport.calls <+: p.2.transport.calls := by
  obtain ⟨cs, -, -, hm, -⟩ := h
  exact ⟨cs, hm.calls.symm⟩

theorem andThen_calls_prefix {α β : Type} {s : State} {p : Reply α} {f : α → State → Reply β}
    (hp : s.transport.calls <+: p.2.transport.calls)
    (hf : ∀ a s', s'.transport.calls <+: (f a s').2.transport.calls) :
    s.transport.calls <+: (andThen p f).2.transport.calls := by
  obtain ⟨k | a, s'⟩ := p
  · exact hp
  · exact hp.trans (hf a s')

theorem versionReply_calls_prefix (s : State) : s.transport.calls <+: (versionReply s).2.transport.calls :=
  andThen_calls_prefix (rxByte_oneCall _ _).calls_prefix fun _ _ =>
    andThen_calls_prefix (rxByte_oneCall _ _).calls_prefix fun _ _ =>
      andThen_calls_prefix (rxReadAll_oneCall _ _ _).calls_prefix fun _ _ =>
        andThen_calls_prefix (rxByte_oneCall _ _).calls_prefix fun _ _ => List.prefix_rfl

theorem chipIdReply_calls_prefix (s : State) : s.transport.calls <+: (chipIdReply s).2.transport.calls :=
  andThen_calls_prefix (rxByte_oneCall _ _).calls_prefix fun _ _ =>
    andThen_calls_prefix (rxPair_oneCall _ _).calls_prefix fun _ _ =>
      andThen_calls_prefix (rxByte_oneCall _ _).calls_prefix fun _ _ => List.prefix_rfl

/-- What follows a SEND_COMMAND in the operation `i`: nothing where it failed, else steps that add their calls to its own. -/
theorem goes_through_sendCommand {i : Instr} {o : Byte} {reply : State → Reply Value} {s t u : State} {r : Result}
    (hop : operationOf i s = andThen (sendCommandOp o s) fun _ => reply)
    (hreply : ∀ s, s.transport.calls <+: (reply s).2.transport.calls) (ht : exec (.sendCommand o) s = .next t)
    (hd : t.delivered = s.delivered ++ [r]) (hu : exec i s = .next u) :
    (r ≠ .ok .unit → u = t) ∧ (r = .ok .unit → ∃ cs, u.transport.calls = t.transport.calls ++ cs) := by
  obtain ⟨cs, hT⟩ := sendCommand_trace o s
  obtain ⟨-, rfl⟩ := exec_next ht
  obtain ⟨-, rfl⟩ := exec_next hu
  rw [hop, operationOf]
  rw [operationOf] at hd
  generalize sendCommandOp o s = p at hT hd
  obtain ⟨x, s'⟩ := p
  have hkept : s'.delivered = s.delivered := hT.moves.delivered
  obtain rfl : resultOf x = r := by simpa [hkept] using hd
  cases x with
  | error k => exact ⟨fun _ => rfl, nofun⟩
  | ok v =>
    obtain rfl : v = .unit := hT.trace.valueFits
    obtain ⟨ds, hds⟩ := hreply s'
    exact ⟨fun h => absurd rfl h, fun _ => ⟨ds, hds.symm⟩⟩

/-- Settles O21: both operations are SEND_COMMAND of their opcode and then reads (`getVersionOp_eq`, `getChipIdOp_eq`). -/
theorem versionAndChipIdGoThroughSendCommand : Obligations.VersionAndChipIdGoThroughSendCommand := by
  rintro i o (⟨rfl, rfl⟩ | ⟨rfl, rfl⟩) s t u r ht hd hu
  · exact goes_through_sendCommand (i := .getVersion) (getVersionOp_eq s) versionReply_calls_prefix ht hd hu
  · exact goes_through_sendCommand (i := .getChipId) (getChipIdOp_eq s) chipIdReply_calls_prefix ht hd hu

/-! ### Repeated queries (R111) -/

theorem writeCompletes_of_all {s : State} (h : ∀ w ∈ s.transport.writeAnswers, w = .completes) : WriteCompletes s := by
  cases hw : s.transport.writeAnswers with
  | nil => simp [WriteCompletes, nextWriteAnswer, hw]
  | cons w ws => simpa [WriteCompletes, nextWriteAnswer, hw] using h w (by simp [hw])

/-- Where an operation answers a stream `reply` in front of anything by the same calls and the same value, its answer to `reply`
twice over is twice the same. -/
theorem exec_twice {i : Instr} {s : State} {reply rest : List RxItem} {cs : List Call} {r : Result}
    (hexec : ∀ (s : State) (rest : List RxItem), Ready s → s.synchronized = true → WriteCompletes s →
      s.transport.incoming = reply ++ rest → exec i s = .next (s.after cs rest r))
    (hr : Ready s) (hs : s.synchronized = true) (hw : ∀ w ∈ s.transport.writeAnswers, w = .completes)
    (h : s.transport.incoming = reply ++ (reply ++ rest)) :
    ∃ t u, exec i s = .next t ∧ exec i t = .next u ∧ u.delivered = s.delivered ++ [r, r] ∧
      u.transport.calls = s.transport.calls ++ cs ++ cs ∧ t.transport.calls = s.transport.calls ++ cs ∧
      u.transport.incoming = rest ∧ t.synchronized = true ∧ u.synchronized = true := by
  have hw' : WriteCompletes (s.after cs (reply ++ rest) r) :=
    writeCompletes_of_all fun w hm => hw w (List.mem_of_mem_tail hm)
  exact ⟨_, _, hexec s _ hr hs (writeCompletes_of_all hw) h, hexec _ rest hr hs hw' rfl, by simp, rfl, rfl, rfl, hs, hs⟩

/-- Settles O24: a whole reply is answered the same way in whatever state it comes (O17, O19), so `exec_twice` applies. -/
theorem repeatedQueriesAnswerAlike : Obligations.RepeatedQueriesAnswerAlike := by
  constructor
  · intro s len ver trail body rest hr hs hw hb h
    obtain ⟨t, u, ht, hu, hd, hcu, hct, hi, hst, hsu⟩ := exec_twice
      (fun s rest hr hs hw h => getVersionReturnsByteAfterLength s len ver trail body rest hr hs hw hb h) hr hs hw
      (rest := rest) (by simpa using h)
    have hbody := txStream_bodyCalls len body
    exact ⟨t, u, _, ht, hu, hd, hcu, hct, by simpa [bodyCalls] using hbody, hi, hst, hsu⟩
  · intro s len b0 b1 trail rest hr hs hw h
    obtain ⟨t, u, ht, hu, hd, hcu, hct, hi, hst, hsu⟩ := exec_twice
      (fun s rest hr hs hw h => getChipIdIgnoresLengthAndTrailer s len b0 b1 trail rest hr hs hw h) hr hs hw
      (rest := rest) h
    exact ⟨t, u, _, ht, hu, hd, hcu, hct, rfl, hi, hst, hsu⟩

/-! ### GET_VERSION's calls counted (R106) -/

theorem callSequence_getVersion_length_le (len : Byte) : (callSequence len .getVersion).length ≤ 6 := by
  by_cases h : len = 0#8 <;> simp [callSequence, h]

/-- Unless it is refused or its transport fails, GET_VERSION makes its write and its acknowledge read at least. -/
theorem Trace.two_le_getVersion {y : Bool} {cs : List Call} {res : Except ErrKind Value}
    (h : Trace .getVersion y cs res) (hr : res ≠ .error .refused) (ht : res ≠ .error .transportError) :
    2 ≤ cs.length := by
  cases h with
  | refused _ _ => exact absurd rfl hr
  | writeFails _ _ _ _ => exact absurd rfl ht
  | ackFails _ _ => exact absurd rfl ht
  | nacked _ _ r _ _ => exact Nat.le_refl 2
  | versionLenStops | versionValStops | versionBodyStops | versionTailStops | versionOk => simp [acked]

/-- A GET_VERSION that succeeds takes the acknowledge, the length byte, the version byte, the body and the trailing byte. -/
theorem Trace.taken_of_getVersion_ok {y : Bool} {cs : List Call} {v : Value} (h : Trace .getVersion y cs (.ok v)) :
    ∃ len, readAll .rxLen [len] ∈ cs ∧ (rxTaken cs).length = 4 + len.toNat := by
  cases h with
  | versionOk len ver body trail hb =>
    exact ⟨len, by simp, by simp [acked, rxTaken_bodyCalls hb, hb]; omega⟩

/-- Settles O34: the calls follow GET_VERSION's row (`Trace.followsRow`), which has at most six entries. -/
theorem getVersionCallCounts : Obligations.GetVersionCallCounts := by
  intro s t r h hdelivered
  obtain ⟨cs, res, -, htr, -, -, -, hdel, -, hcalls, -⟩ := exec_trace h
  obtain rfl : r = resultOf res := by simpa [hdelivered] using hdel
  obtain ⟨len, hrow⟩ := htr.followsRow
  have hle : cs.length ≤ (callSequence len .getVersion).length := by simpa using hrow.row.length_le
  refine ⟨cs, hcalls, hle.trans (callSequence_getVersion_length_le len),
    fun hst => hrow.onRefused (status_resultOf_eq_refused hst), fun hr ht => ?_, fun hst => ?_⟩
  · exact htr.two_le_getVersion (by rintro rfl; exact hr rfl) (by rintro rfl; exact ht rfl)
  · obtain ⟨v, rfl⟩ := status_resultOf_eq_ok hst
    exact htr.taken_of_getVersion_ok

end Sys2Proof.Machine
end

section
/-! PROOFS. 42_custom_read.md: READ_MEMORY by the answers of the transport, whatever the mode (R120, R121, R123, R126), and the caller's DECODE_LE32 (R124). -/

namespace Sys2Proof.Machine

/-! ### A read that must be whole, on a known stream -/

theorem reads_rxReadAll_zero (ph : Phase) (items : List RxItem) : Reads (rxReadAll ph 0) items (.ok []) [] items := by
  have e : rxReadAll ph 0 = fun s => (.ok [], s) := funext (rxReadAll_zero ph)
  rw [e]
  exact reads_nothing _ items

theorem reads_rxReadAll_whole (ph : Phase) {bs : List Byte} (hn : 0 < bs.length) (rest : List RxItem) :
    Reads (rxReadAll ph bs.length) (bytesIn bs ++ rest) (.ok bs) [readAll ph bs] rest :=
  fun _ h => rxReadAll_full hn rfl h

theorem reads_rxReadAll_short (ph : Phase) {n : Nat} {bs : List Byte} {stop rest : List RxItem} (hl : bs.length < n)
    (hs : Stops stop rest) :
    Reads (rxReadAll ph n) (bytesIn bs ++ stop) (.error .shortRead) [⟨ph, .read n bs false⟩] rest :=
  fun _ h => rxReadAll_short hl hs h

theorem reads_rxReadAll_failed (ph : Phase) {n : Nat} {bs : List Byte} (hl : bs.length < n) (rest : List RxItem) :
    Reads (rxReadAll ph n) (bytesIn bs ++ .failure :: rest) (.error .transportError) [⟨ph, .read n bs true⟩]
      rest := by
  intro s h
  simp [rxReadAll, rxRead_pos (Nat.zero_lt_of_lt hl), h, takeRx_failed rest hl, State.afterReads, afterRead]

/-- Every stream decides how the read ends. -/
theorem exists_reads_rxReadAll (ph : Phase) (n : Nat) (items : List RxItem) :
    ∃ x cs rest, Reads (rxReadAll ph n) items x cs rest := by
  rcases Nat.eq_zero_or_pos n with rfl | hn
  · exact ⟨_, _, _, reads_rxReadAll_zero ph items⟩
  · rcases takeRx_cases n items with ⟨hl, -, hi⟩ | ⟨hl, -, stop, hs, hi⟩ | ⟨hl, -, hi⟩
    · exact ⟨_, _, _, fun _ h => rxReadAll_full hn hl (h.trans hi)⟩
    · exact ⟨_, _, _, fun s h => reads_rxReadAll_short ph hl hs s (h.trans hi)⟩
    · exact ⟨_, _, _, fun s h => reads_rxReadAll_failed ph hl _ s (h.trans hi)⟩

/-! ### READ_MEMORY, by the answers of the transport (R120) -/

/-- The data read decides the result: its bytes are the value, its error is the operation's. -/
theorem exec_readMemory_reads {s : State} {a : Word} {n : Half} {items rest : List RxItem}
    {x : Except ErrKind (List Byte)} {cs : List Call} (hr : Ready s) (hw : WriteCompletes s)
    (h : s.transport.incoming = items) (hx : Reads (rxReadAll .rxRaw n.toNat) items x cs rest) :
    exec (.readMemory a n) s =
      .next (s.after (wrote (0x11 :: addressBytes a) :: cs) rest (resultOf (x.map .bytes))) := by
  have hop : operationOf (.readMemory a n) s = (x.map .bytes,
      (afterWrite .tx (0x11 :: addressBytes a) (0x11 :: addressBytes a) false s).afterReads cs rest) := by
    have hread := hx (afterWrite .tx (0x11 :: addressBytes a) (0x11 :: addressBytes a) false s) h
    simp only [operationOf, readMemoryOp, frame_readMemory, txWrite_completes hw, andThen_ok, rawSize, hread]
    cases x <;> rfl
  rw [exec_ready hr, hop]
  simp [deliver, State.afterReads, State.after, afterWrite, wrote, hr.2]

theorem exec_readMemory_writeFails {s : State} {k : Nat} (a : Word) (n : Half) (hr : Ready s)
    (h : nextWriteAnswer s = .fails k) :
    exec (.readMemory a n) s = .next (s.after
      [⟨.tx, .write (0x11 :: addressBytes a) ((0x11 :: addressBytes a).take k) true⟩] s.transport.incoming
      (.err .transportError)) := by
  have hop : operationOf (.readMemory a n) s = (.error .transportError,
      afterWrite .tx (0x11 :: addressBytes a) ((0x11 :: addressBytes a).take k) true s) := by
    simp only [operationOf, readMemoryOp, frame_readMemory, txWrite_fails h, andThen_error]
  exact exec_eq_after hr hop (afterWrite_moves .tx _ _ true s) rfl

theorem exec_readMemory_whole {s : State} {a : Word} {n : Half} {d : List Byte} {rest : List RxItem} (hr : Ready s)
    (hw : WriteCompletes s) (hn : n ≠ 0) (hl : d.length = n.toNat) (h : s.transport.incoming = bytesIn d ++ rest) :
    exec (.readMemory a n) s =
      .next (s.after [wrote (0x11 :: addressBytes a), readAll .rxRaw d] rest (.ok (.bytes d))) := by
  have hpos : 0 < d.length := hl ▸ Nat.pos_of_ne_zero fun h0 => hn (BitVec.eq_of_toNat_eq h0)
  exact exec_readMemory_reads hr hw h (hl ▸ reads_rxReadAll_whole .rxRaw hpos rest)

/-- Settles O22: a write that fails ends it; after one that completes, each clause says how the data read ends, and
`exec_readMemory_reads` gives the state. -/
theorem readMemoryReturnsAllOrNothing : Obligations.ReadMemoryReturnsAllOrNothing := by
  intro s a n hr
  refine ⟨fun d rest hw hn hl h => ?whole, fun hw hn => ?nothingAsked, fun d stop rest hw hl hs h => ?short,
    fun d rest hw hl h => ?failure, fun k h => ?write⟩
  case whole => exact exec_readMemory_whole hr hw hn hl h
  case nothingAsked =>
    subst hn
    exact exec_readMemory_reads (n := 0) hr hw rfl (reads_rxReadAll_zero .rxRaw _)
  case short => exact exec_readMemory_reads hr hw h (reads_rxReadAll_short .rxRaw hl hs)
  case failure => exact exec_readMemory_reads hr hw h (reads_rxReadAll_failed .rxRaw hl rest)
  case write => exact exec_readMemory_writeFails a n hr h

/-! ### Whatever the mode (R121) -/

/-- In either mode READ_MEMORY makes the same calls, leaves the same stream and returns the same result. -/
theorem exec_readMemory_any_mode {s : State} (a : Word) (n : Half) (hr : Ready s) :
    ∃ cs incoming r, ∀ b, exec (.readMemory a n) { s with synchronized := b } =
      .next { s.after cs incoming r with synchronized := b } := by
  cases hans : nextWriteAnswer s with
  | completes =>
    obtain ⟨x, cs, rest, hx⟩ := exists_reads_rxReadAll .rxRaw n.toNat s.transport.incoming
    exact ⟨_, rest, _, fun b => exec_readMemory_reads (s := { s with synchronized := b }) hr hans rfl hx⟩
  | fails k =>
    exact ⟨_, s.transport.incoming, _, fun b =>
      exec_readMemory_writeFails (s := { s with synchronized := b }) a n hr hans⟩

/-- Settles O23: the state's own mode is one of the two, and `State.after` keeps the bit. -/
theorem readMemoryBlindToMode : Obligations.ReadMemoryBlindToMode := by
  refine ⟨⟨rfl, rfl⟩, fun s a n b hr => ?_⟩
  obtain ⟨cs, incoming, r, h⟩ := exec_readMemory_any_mode a n hr
  exact ⟨s.after cs incoming r, h s.synchronized, rfl, h b⟩

/-! ### DECODE_LE32 (R124) -/

/-- Settles O9: `DECODE_LE32` is the join of R65's split, and the scripted read is a whole one of four bytes. -/
theorem decodeLe32UndoesTheSplit : Obligations.DecodeLe32UndoesTheSplit := by
  refine ⟨fun d0 d1 d2 d3 => ⟨rfl, joinLe32_toNat d0 d1 d2 d3⟩, fun a => ⟨_, _, _, _, rfl, joinLe32_split a⟩,
    fun s rest hr hw h => ?deviceIdentifier⟩
  case deviceIdentifier =>
    have hid : deviceId (.ok (.bytes [0x04, 0x15, 0x01, 0x40])) = some 0x40011504 := by decide
    exact ⟨_, _, exec_readMemory_whole hr hw (by decide) rfl h, rfl, hid⟩

end Sys2Proof.Machine
end

section
/-! PROOFS. 60_exceptions.md: which outcomes an operation can have (R152), and what its last transport call tells of its error (R131 to R133). -/

namespace Sys2Proof.Machine

/-! ### The table of outcomes (R152) -/

theorem ok_mem_allowedStatus (i : Instr) : .ok ∈ allowedStatus i := by
  cases i <;> simp [allowedStatus]

theorem transportError_mem_allowedStatus (i : Instr) : .transportError ∈ allowedStatus i := by
  cases i <;> simp [allowedStatus]

theorem noResponse_mem_allowedStatus {i : Instr} : .noResponse ∈ allowedStatus i ↔ i = .enter := by
  cases i <;> simp [allowedStatus]

theorem nacked_mem_allowedStatus {i : Instr} : .nacked ∈ allowedStatus i ↔ requiresSynchronized i = true := by
  cases i <;> simp [allowedStatus, requiresSynchronized]

theorem refused_mem_allowedStatus {i : Instr} : .refused ∈ allowedStatus i ↔ requiresSynchronized i = true := by
  cases i <;> simp [allowedStatus, requiresSynchronized]

/-! ### No outcome outside the table -/

/-- A read that ends an operation which the table lets end in ShortRead. -/
theorem StopCall.status_mem_allowedStatus {i : Instr} {ph : Phase} {n : Nat} {c : Call} {k : ErrKind}
    (h : StopCall ph n c k) (hi : .shortRead ∈ allowedStatus i) : (Result.err k).status ∈ allowedStatus i := by
  cases h with
  | short r hl => exact hi
  | failed r hl => exact transportError_mem_allowedStatus i

theorem Trace.status_mem_allowedStatus {i : Instr} {y : Bool} {cs : List Call} {res : Except ErrKind Value}
    (h : Trace i y cs res) : (resultOf res).status ∈ allowedStatus i := by
  cases h with
  | refused _ hi => exact refused_mem_allowedStatus.mpr hi
  | nacked _ hi r _ _ => exact nacked_mem_allowedStatus.mpr hi
  | enterNoResponse _ r _ _ => exact noResponse_mem_allowedStatus.mpr rfl
  | writeFails _ _ k _ | enterFails _ | ackFails _ _ => exact transportError_mem_allowedStatus _
  | enterAck _ | sendCommandOk o | versionOk len ver body trail _ | chipIdOk len b0 b1 trail | rawOk _ a n d _ =>
    exact ok_mem_allowedStatus _
  | versionLenStops c k hc | versionValStops len c k hc | versionBodyStops len ver c k _ hc
  | versionTailStops len ver body c k _ hc | chipIdLenStops c k hc | chipIdValStops len c k hc
  | chipIdTailStops len b0 b1 c k hc | rawStops _ a n c k _ hc =>
    exact hc.status_mem_allowedStatus (by simp [allowedStatus])

/-! ### A state for every outcome in the table -/

/-- From some ready state `i` delivers a result of status `st`. -/
def CanEnd (i : Instr) (st : Status) : Prop :=
  ∃ s t r, Ready s ∧ exec i s = .next t ∧ t.delivered = s.delivered ++ [r] ∧ r.status = st

/-- A ready state with the flag `y`, the receive stream `items` and the answers `answers` to its coming writes. -/
def readyWith (y : Bool) (items : List RxItem) (answers : List WriteAnswer) : State :=
  { State.construct Settings.default ⟨true, items, answers, []⟩ with synchronized := y }

theorem readyWith_ready (y : Bool) (items : List RxItem) (answers : List WriteAnswer) :
    Ready (readyWith y items answers) := ⟨rfl, rfl⟩

/-- A ready state's operation delivers the result its steps end with. -/
theorem CanEnd.of_ready {i : Instr} {s : State} (hr : Ready s) : CanEnd i (resultOf (operationOf i s).1).status := by
  obtain ⟨cs, hT⟩ := operation_trace i s
  exact ⟨s, _, _, hr, exec_ready hr, by rw [deliver_delivered, hT.moves.delivered], rfl⟩

/-- The acknowledge 0x79 and then zero bytes answer every operation but READ_MEMORY; its data are `length` zero bytes. -/
theorem canEnd_ok (i : Instr) : CanEnd i .ok := by
  cases i with
  | enter | sendCommand o | getVersion | getChipId =>
    exact .of_ready (readyWith_ready true (bytesIn [0x79, 0, 0, 0, 0]) [])
  | readMemory a n =>
    by_cases hn : n = 0
    · subst hn
      exact .of_ready (readyWith_ready true [] [])
    · have hr := readyWith_ready true (bytesIn (List.replicate n.toNat 0) ++ []) []
      exact ⟨_, _, _, hr, exec_readMemory_whole hr rfl hn (by simp) rfl, rfl, rfl⟩

/-- A write may fail, whatever it writes. -/
theorem canEnd_transportError (i : Instr) : CanEnd i .transportError := by
  cases i <;> exact .of_ready (readyWith_ready true [] [.fails 0])

/-- A silent device gives no acknowledge. -/
theorem canEnd_nacked {i : Instr} (hi : requiresSynchronized i = true) : CanEnd i .nacked := by
  cases i with
  | enter | readMemory a n => simp [requiresSynchronized] at hi
  | sendCommand o | getVersion | getChipId => exact .of_ready (readyWith_ready true [] [])

theorem canEnd_refused {i : Instr} (hi : requiresSynchronized i = true) : CanEnd i .refused := by
  have hr := readyWith_ready false [] []
  have h := CanEnd.of_ready (i := i) hr
  rwa [operationOf_refused hi rfl] at h

/-- The device falls silent after the acknowledge, or before READ_MEMORY's first byte where one is asked for. -/
theorem canEnd_shortRead {i : Instr} (hi : .shortRead ∈ allowedStatus i) (hz : ∀ a, i ≠ .readMemory a 0) :
    CanEnd i .shortRead := by
  cases i with
  | enter | sendCommand o => simp [allowedStatus] at hi
  | getVersion | getChipId => exact .of_ready (readyWith_ready true (bytesIn [0x79]) [])
  | readMemory a n =>
    have hn : 0 < n.toNat := Nat.pos_of_ne_zero fun h => hz a (congrArg _ (BitVec.eq_of_toNat_eq h))
    have hr := readyWith_ready true [] []
    exact ⟨_, _, _, hr, exec_readMemory_reads hr rfl rfl (reads_rxReadAll_short (bs := []) .rxRaw hn .silence), rfl, rfl⟩

/-- Settles O27: no shape of an operation's calls ends outside the table (`Trace.status_mem_allowedStatus`), and for each
outcome in it a state is given. -/
theorem outcomesAreThoseOfTheTable : Obligations.OutcomesAreThoseOfTheTable := by
  constructor
  · intro i s t r h hdelivered
    obtain ⟨cs, res, -, htr, -, -, -, hdel, -⟩ := exec_trace h
    obtain rfl : r = resultOf res := by simpa [hdelivered] using hdel
    exact htr.status_mem_allowedStatus
  · intro i st hst hz
    show CanEnd i st
    cases st with
    | ok => exact canEnd_ok i
    | noResponse =>
      obtain rfl := noResponse_mem_allowedStatus.mp hst
      exact .of_ready (readyWith_ready true [] [])
    | nacked => exact canEnd_nacked (nacked_mem_allowedStatus.mp hst)
    | shortRead => exact canEnd_shortRead hst fun a ha => hz a ha rfl
    | transportError => exact canEnd_transportError i
    | refused => exact canEnd_refused (refused_mem_allowedStatus.mp hst)

/-! ### What the last call tells (R131 to R134) -/

/-- The second call is an acknowledge read that gave something else than the one byte 0x79, and it is the last (R131, R132). -/
def AckRejected (cs : List Call) : Prop :=
  ∃ c taken, cs = [c, ⟨.rxAck, .read 1 taken false⟩] ∧ taken ≠ [0x79]

/-- The last call is a read past the acknowledge that gave fewer bytes than asked (R133). -/
def EndsShort (cs : List Call) : Prop :=
  ∃ ph n taken, cs.getLast? = some ⟨ph, .read n taken false⟩ ∧ ph ≠ .rxAck ∧ taken.length < n

theorem not_ackRejected_of_goesOn {cs : List Call} (h : ∀ c ∈ cs, c.GoesOn) : ¬ AckRejected cs := by
  rintro ⟨c, taken, rfl, hne⟩
  obtain ⟨-, hack⟩ := h ⟨.rxAck, .read 1 taken false⟩ (by simp)
  exact hne (by simpa [readAll] using hack rfl)

theorem not_endsShort_of_goesOn {cs : List Call} (h : ∀ c ∈ cs, c.GoesOn) : ¬ EndsShort cs := by
  rintro ⟨ph, n, taken, hlast, -, hlt⟩
  obtain ⟨⟨-, hwhole⟩, -⟩ := h _ (List.mem_of_getLast? hlast)
  exact Nat.ne_of_lt hlt hwhole

theorem AckRejected.not_endsShort {cs : List Call} (h : AckRejected cs) : ¬ EndsShort cs := by
  obtain ⟨c, taken, rfl, -⟩ := h
  rintro ⟨ph, n, r, hlast, hph, -⟩
  have hack : .rxAck = ph := by simpa using congrArg (Option.map Call.phase) hlast
  exact hph hack.symm

theorem AckRejected.last_unfailed {cs : List Call} {c : Call} (h : AckRejected cs) (hc : cs.getLast? = some c) :
    c.failed = false := by
  obtain ⟨d, taken, rfl, -⟩ := h
  obtain rfl : _ = c := by simpa using hc
  rfl

theorem EndsShort.last_unfailed {cs : List Call} {c : Call} (h : EndsShort cs) (hc : cs.getLast? = some c) :
    c.failed = false := by
  obtain ⟨ph, n, taken, hlast, -⟩ := h
  obtain rfl : _ = c := by simpa [hlast] using hc
  rfl

/-- The four ways an operation's calls end, and the statuses that go with each. -/
inductive Ending (cs : List Call) (st : Status) : Prop where
  | goesOn (h : ∀ c ∈ cs, c.GoesOn) (hst : st = .ok ∨ st = .refused)
  | rejected (h : AckRejected cs) (hst : st = .noResponse ∨ st = .nacked)
  | short (h : EndsShort cs) (hst : st = .shortRead)
  | failed (c : Call) (h : cs.getLast? = some c) (hf : c.failed = true) (hst : st = .transportError)

theorem Ending.ackRejected_iff {cs : List Call} {st : Status} (h : Ending cs st) :
    AckRejected cs ↔ st = .noResponse ∨ st = .nacked := by
  cases h with
  | goesOn h hst => exact iff_of_false (not_ackRejected_of_goesOn h) (by rcases hst with rfl | rfl <;> simp)
  | rejected h hst => exact iff_of_true h hst
  | short h hst => exact iff_of_false (fun ha => ha.not_endsShort h) (by simp [hst])
  | failed c h hf hst => exact iff_of_false (fun ha => by simp [ha.last_unfailed h] at hf) (by simp [hst])

theorem Ending.endsShort_iff {cs : List Call} {st : Status} (h : Ending cs st) : EndsShort cs ↔ st = .shortRead := by
  cases h with
  | goesOn h hst => exact iff_of_false (not_endsShort_of_goesOn h) (by rcases hst with rfl | rfl <;> simp)
  | rejected h hst => exact iff_of_false h.not_endsShort (by rcases hst with rfl | rfl <;> simp)
  | short h hst => exact iff_of_true h hst
  | failed c h hf hst => exact iff_of_false (fun hs => by simp [hs.last_unfailed h] at hf) (by simp [hst])

/-- A read past the acknowledge that ends an operation. -/
theorem Ending.of_stopCall {cs : List Call} {ph : Phase} {n : Nat} {c : Call} {k : ErrKind}
    (hlast : cs.getLast? = some c) (hc : StopCall ph n c k) (hph : ph ≠ .rxAck) : Ending cs (Result.err k).status := by
  cases hc with
  | short r hl => exact .short ⟨ph, n, r, hlast, hph, hl⟩ rfl
  | failed r hl => exact .failed _ hlast rfl rfl

/-- Every shape of an operation's calls ends in one of the four ways; an operation that succeeds went through its whole row. -/
theorem Trace.ending {i : Instr} {y : Bool} {cs : List Call} {res : Except ErrKind Value} (h : Trace i y cs res) :
    Ending cs (resultOf res).status := by
  obtain ⟨len, hrow⟩ := h.followsRow
  cases h with
  | refused _ _ => exact .goesOn nofun (.inr rfl)
  | enterAck _ | sendCommandOk o | versionOk len ver body trail _ | chipIdOk len b0 b1 trail | rawOk _ a n d _ =>
    exact .goesOn (hrow.onOk _ rfl).2 (.inl rfl)
  | enterNoResponse _ r hne _ => exact .rejected ⟨_, r, rfl, hne⟩ (.inl rfl)
  | nacked _ _ r hne _ => exact .rejected ⟨_, r, rfl, hne⟩ (.inr rfl)
  | writeFails _ _ k _ | enterFails _ | ackFails _ _ => exact .failed _ rfl rfl rfl
  | versionLenStops c k hc | versionValStops len c k hc | versionBodyStops len ver c k _ hc
  | chipIdLenStops c k hc | chipIdValStops len c k hc | chipIdTailStops len b0 b1 c k hc | rawStops _ a n c k _ hc =>
    exact .of_stopCall (by simp) hc nofun
  | versionTailStops len ver body c k _ hc => exact .of_stopCall List.getLast?_concat hc nofun

/-- Settles O28: the last call tells a rejected acknowledge from a short read (`Trace.ending`), and the table of outcomes
which operation's acknowledge it was. -/
theorem errorKindNamesItsCause : Obligations.ErrorKindNamesItsCause := by
  intro i s t h
  obtain ⟨cs, res, -, htr, -, -, -, hdel, -, hcalls, -⟩ := exec_trace h
  have hack := htr.ending.ackRejected_iff
  have hmem := htr.status_mem_allowedStatus
  refine ⟨cs, resultOf res, hcalls, hdel, ⟨fun hst => ?_, fun ⟨hi, hrej⟩ => ?_⟩, ⟨fun hst => ?_, fun ⟨hi, hrej⟩ => ?_⟩,
    htr.ending.endsShort_iff.symm⟩
  · exact ⟨noResponse_mem_allowedStatus.mp (hst ▸ hmem), hack.mpr (.inl hst)⟩
  · refine (hack.mp hrej).resolve_right fun hst => ?_
    have hreq := nacked_mem_allowedStatus.mp (hst ▸ hmem)
    simp [hi, requiresSynchronized] at hreq
  · exact ⟨nacked_mem_allowedStatus.mp (hst ▸ hmem), hack.mpr (.inr hst)⟩
  · refine (hack.mp hrej).resolve_left fun hst => ?_
    obtain rfl := noResponse_mem_allowedStatus.mp (hst ▸ hmem)
    simp [requiresSynchronized] at hi

end Sys2Proof.Machine
end

section
/-! PROOFS. 70_reset_and_hazards.md: every operation ends, after a bounded number of calls (R174), and the start-up order decides whether it is refused (R163). -/

namespace Sys2Proof.Machine

/-! ### Every operation ends (R174) -/

/-- Settles O40: six micro-steps reach IDLE (`finish_idle`), which has no micro-step of its own. -/
theorem everyOperationTerminates : Obligations.EveryOperationTerminates := by
  refine fun s => ⟨finish_idle s, fun n hn => ?_⟩
  obtain ⟨m, rfl⟩ := Nat.exists_eq_add_of_le hn
  calc microSteps (6 + m) s = microSteps m (finish s) := microSteps_add 6 m s
    _ = finish s := microSteps_idle (finish_idle s) m

/-! ### The calls of an operation counted and bounded (R174) -/

theorem callSequence_length_le (len : Byte) (i : Instr) : (callSequence len i).length ≤ maxCalls i := by
  cases i with
  | getVersion => exact callSequence_getVersion_length_le len
  | readMemory a n => by_cases h : n = 0#16 <;> simp [callSequence, maxCalls, h]
  | _ => exact Nat.le_refl _

theorem Trace.length_le_maxCalls {i : Instr} {y : Bool} {cs : List Call} {res : Except ErrKind Value}
    (h : Trace i y cs res) : cs.length ≤ maxCalls i := by
  obtain ⟨len, hrow⟩ := h.followsRow
  exact Nat.le_trans (by simpa using hrow.row.length_le) (callSequence_length_le len i)

theorem maxCalls_le_six (i : Instr) : maxCalls i ≤ 6 := by
  cases i <;> simp [maxCalls]

@[simp] theorem durationBound_nil (settings : Settings) : durationBound settings [] = 0 := rfl
@[simp] theorem durationBound_cons (settings : Settings) (c : Call) (cs : List Call) :
    durationBound settings (c :: cs) = callBound settings c + durationBound settings cs := rfl

theorem durationBound_of_reads (settings : Settings) {cs : List Call} (h : ∀ c ∈ cs, c.isWrite = false) :
    durationBound settings cs = cs.length * settings.tRead := by
  have hb : ∀ c ∈ cs, callBound settings c = settings.tRead := fun c hc => by simp [callBound, h c hc]
  simp [durationBound, List.map_congr_left hb]

theorem durationBound_write_then_reads (settings : Settings) {c : Call} {cs : List Call} (hc : c.isWrite = true)
    (h : ∀ d ∈ cs, d.isWrite = false) :
    durationBound settings (c :: cs) = Config.T_WRITE + cs.length * settings.tRead := by
  simp [durationBound_of_reads settings h, callBound, hc]

/-- At most one of an operation's calls is a write: its first. -/
theorem FrameFirst.durationBound_le {i : Instr} {cs : List Call} (h : FrameFirst i cs) (settings : Settings) :
    durationBound settings cs ≤ Config.T_WRITE + (cs.length - 1) * settings.tRead := by
  cases h with
  | noCall => exact Nat.zero_le _
  | writeFails k => exact (durationBound_write_then_reads settings rfl (by simp)).le
  | ackOnly r f => exact (durationBound_write_then_reads settings rfl (by simp)).le
  | thenReads _ reads hreads => exact (durationBound_write_then_reads settings rfl hreads).le

/-- Settles O35: the calls follow a row of at most `maxCalls i` entries, and of the six at most only the first is a write
(`FrameFirst.durationBound_le`). -/
theorem durationIsBounded : Obligations.DurationIsBounded := by
  intro i s t h
  obtain ⟨cs, res, -, htr, -, -, -, -, -, hcalls, -⟩ := exec_trace h
  have hlen := htr.length_le_maxCalls
  have hsix := maxCalls_le_six i
  have hreads : cs.length - 1 ≤ 5 := by omega
  exact ⟨cs, hcalls, hlen, (htr.frameFirst.durationBound_le s.settings).trans (by gcongr)⟩

/-! ### The start-up order (R101, R163) -/

theorem mayIssue_eq_false {i : Instr} {s : State} :
    mayIssue i s = false ↔ requiresSynchronized i = true ∧ s.synchronized = false := by
  simp [mayIssue]

/-- Refused is the outcome exactly of a standard command issued while unsynchronized (R101). -/
theorem Trace.refused_iff {i : Instr} {y : Bool} {cs : List Call} {res : Except ErrKind Value} (h : Trace i y cs res) :
    (resultOf res).status = .refused ↔ requiresSynchronized i = true ∧ y = false := by
  constructor
  · intro hst
    obtain rfl := status_resultOf_eq_refused hst
    cases h with
    | refused _ hi => exact ⟨hi, rfl⟩
    | versionLenStops c _ hc | versionValStops len c _ hc | versionBodyStops len ver c _ _ hc
    | versionTailStops len ver body c _ _ hc | chipIdLenStops c _ hc | chipIdValStops len c _ hc
    | chipIdTailStops len b0 b1 c _ hc | rawStops _ a n c _ _ hc => exact absurd rfl hc.ne_refused
  · rintro ⟨hi, rfl⟩
    cases h with
    | refused _ _ => rfl
    | writeFails _ _ k hy => exact absurd (hy hi) Bool.false_ne_true
    | enterAck _ | enterNoResponse _ r _ _ | enterFails _ | rawStops _ a n c k _ _ | rawOk _ a n d _ =>
      simp [requiresSynchronized] at hi

theorem noneRefused_of_delivered {s t : State} {r : Result} (h : t.delivered = s.delivered ++ [r]) :
    noneRefused t = (noneRefused s && r.status != .refused) := by
  simp [noneRefused, h]

/-- Settles O37: an operation adds one result, which is Refused exactly when the order is broken (`Trace.refused_iff`). -/
theorem startUpOrderDecidesRefusal : Obligations.StartUpOrderDecidesRefusal := by
  intro i s t h
  obtain ⟨cs, res, -, htr, -, -, -, hdel, -⟩ := exec_trace h
  have hiff := htr.refused_iff.trans mayIssue_eq_false.symm
  rw [noneRefused_of_delivered hdel]
  congr 1
  cases hm : mayIssue i s with
  | false => simp [hiff.mpr hm]
  | true => simpa [hm] using hiff

end Sys2Proof.Machine
end

section
/-! PROOFS. 30_encoding.md and 60_exceptions.md: the spec's own numberings of the operations and of the outcomes (R81, R136), and which requests stop before any call (R81, R101); 20_memory.md: reads of size 0 (R59). -/

namespace Sys2Proof.Machine

/-! ### The selector codes (R81) -/

theorem decode_reserved {r : Request} (h : 5 ≤ r.op.toNat) : decode r = .error (.reservedSelector r.op) := by
  obtain ⟨n, hn⟩ := Nat.exists_eq_add_of_le' h
  simp [decode, hn]

theorem step_reserved {s : State} {r : Request} {rest : List Request} {e : DecodeError} (hr : Ready s)
    (hq : s.requests = r :: rest) (hd : decode r = .error e) : step s = .refused (.reservedSelector r.op) := by
  simp [step, fetch, hr.1, hr.2, hq, hd]

/-- Settles O2: the five codes by evaluating `decode`; any other selector is reserved (`decode_reserved`), and `step` looks at
nothing else of such a request (`step_reserved`). -/
theorem selectorCodesSelectTheOperations : Obligations.SelectorCodesSelectTheOperations := by
  intro r
  refine ⟨fun h => ?_, fun h => ?_, fun h => ?_, fun h => ?_, fun h => ?_, fun h => ?reserved⟩
  case reserved => exact ⟨decode_reserved h, fun s rest hr hq => step_reserved hr hq (decode_reserved h)⟩
  all_goals simp [decode, h]

/-! ### Reads of size 0 (R59) -/

/-- Settles O12: the read makes no call by definition; GET_VERSION with an empty body is O17, READ_MEMORY of no byte is O22. -/
theorem zeroSizeReadMakesNoCall : Obligations.ZeroSizeReadMakesNoCall := by
  refine ⟨rxRead_zero, fun s v t rest hr hs hw h => ?version, fun s a hr hw => ?nothingAsked⟩
  case version => exact getVersionReturnsByteAfterLength s 0x00 v t [] rest hr hs hw rfl h
  case nothingAsked =>
    obtain ⟨-, hzero, -⟩ := readMemoryReturnsAllOrNothing s a 0 hr
    exact hzero hw rfl

/-! ### The precondition of the standard commands (R101) -/

theorem requiresSynchronized_iff {i : Instr} :
    requiresSynchronized i = true ↔ (∃ o, i = .sendCommand o) ∨ i = .getVersion ∨ i = .getChipId := by
  cases i <;> simp [requiresSynchronized]

theorem exec_refused {i : Instr} {s : State} (hr : Ready s) (hi : requiresSynchronized i = true)
    (hs : s.synchronized = false) : exec i s = .next { s with delivered := s.delivered ++ [.err .refused] } := by
  rw [exec_ready hr, operationOf_refused hi hs, deliver, ← hr.2]
  rfl

/-- Settles O16: such a command ends before its first call (`exec_refused`), and no other shape of an operation's calls ends as
Refused (`Trace.refused_iff`). -/
theorem standardCommandsRefusedBeforeHandshake : Obligations.StandardCommandsRefusedBeforeHandshake := by
  refine ⟨fun s i hr hs hi => exec_refused hr (requiresSynchronized_iff.mpr hi) hs, fun i s t h => ?_⟩
  obtain ⟨cs, res, -, htr, -, -, -, hdel, -⟩ := exec_trace h
  exact ⟨resultOf res, hdel, by rw [htr.refused_iff, requiresSynchronized_iff, and_comm]⟩

/-! ### The status numbers (R136) -/

theorem Status.code_toNat_le_five (a : Status) : a.code.toNat ≤ 5 := by
  cases a <;> decide

/-- The outcome a status number stands for; 6 and 7, which stand for none, are read as the last one. -/
def statusOfCode (c : BitVec 3) : Status :=
  match c.toNat with
  | 0 => .ok
  | 1 => .noResponse
  | 2 => .nacked
  | 3 => .shortRead
  | 4 => .transportError
  | _ => .refused

theorem statusOfCode_code (a : Status) : statusOfCode a.code = a := by
  cases a <;> rfl

/-- Settles O48: the numbers are the definition's; none exceeds 5, and each gives its outcome back (`statusOfCode_code`). -/
theorem statusCodesAreZeroToFive : Obligations.StatusCodesAreZeroToFive := by
  refine ⟨rfl, rfl, rfl, rfl, rfl, rfl, fun r => ?_, fun a b h => Function.LeftInverse.injective statusOfCode_code h⟩
  have hle := r.status.code_toNat_le_five
  constructor <;> intro h <;> simp [h] at hle

end Sys2Proof.Machine
end
